-- ==== Sys2Proof/Word.lean ====
section
/-!
DEFINITION. The widths of the machine: words, instruction words, line indices, label ids and the two
index types (00_scope.md R4, R5, R7).
-/
namespace Sys2Proof

/-- A register, data memory word or immediate: 32 bits, two's complement (R4, R7). -/
abbrev Word := BitVec 32

/-- An instruction word, `IWLEN = 64` (R5, R75). -/
abbrev IWord := BitVec 64

/-- A program counter value or label target, `PCW = 16` (R5, R12). -/
abbrev LineIndex := BitVec 16

/-- A label id, 32 bits (R5, R91). -/
abbrev LabelId := BitVec 32

/-- The number of a general register, `NREG = 16` (R4, R10). It is only ever an index. -/
abbrev Reg := Fin 16

/-- An index into the data memory, `NMEM = 256` (R4, R19, R41). It is only ever an index. -/
abbrev MemIx := Fin 256

end Sys2Proof
end

