-- ==== Sys2Proof/Syntax.lean ====
section
/-!
DEFINITION. The abstract decoded line of 30_encoding.md R73: one constructor per mnemonic of
spec/opcode_table.json. The two decode errors of R73 are not lines; `Decode.lean` rejects by them.
-/
namespace Sys2Proof

/-- Operand 2 (R73): an immediate of the full 32 bits, or a register. -/
inductive Op2 where
  | imm (v : Word)
  | reg (m : Reg)
  deriving DecidableEq, Repr

/-- A line that can be executed (R73), the 18 mnemonics in the order of R64, then the line kinds of
48_halt_and_nonexec.md. BAD is the line of opcode 0xFF (R82), which always raises MalformedOperand (R154). -/
inductive Instr where
  /-- load data word `a` into register `d` (R110) -/
  | ldr (d : Reg) (a : MemIx)
  /-- store register `d` into data word `a` (R111) -/
  | str (d : Reg) (a : MemIx)
  /-- add (R116) -/
  | add (d n : Reg) (o : Op2)
  /-- subtract (R117) -/
  | sub (d n : Reg) (o : Op2)
  /-- bitwise and (R121) -/
  | and (d n : Reg) (o : Op2)
  /-- bitwise inclusive or (R122) -/
  | orr (d n : Reg) (o : Op2)
  /-- bitwise exclusive or (R123) -/
  | eor (d n : Reg) (o : Op2)
  /-- shift left (R126) -/
  | lsl (d n : Reg) (o : Op2)
  /-- shift right (R128) -/
  | lsr (d n : Reg) (o : Op2)
  /-- move operand 2 (R130) -/
  | mov (d : Reg) (o : Op2)
  /-- move the complement of operand 2 (R131) -/
  | mvn (d : Reg) (o : Op2)
  /-- compare (R135) -/
  | cmp (n : Reg) (o : Op2)
  /-- branch (R140) -/
  | b (l : LabelId)
  /-- branch if EQUAL (R141) -/
  | beq (l : LabelId)
  /-- branch if LESS or GREATER (R142) -/
  | bne (l : LabelId)
  /-- branch if GREATER (R143) -/
  | bgt (l : LabelId)
  /-- branch if LESS (R144) -/
  | blt (l : LabelId)
  /-- stop (R150) -/
  | halt
  /-- a label declaration (R151) -/
  | label (l : LabelId)
  /-- an empty line (R152) -/
  | blank
  /-- an unrecognized mnemonic (R153); `op` is the reserved opcode of R81, which changes nothing (log 7) -/
  | unk (op : BitVec 8)
  /-- a recognised mnemonic with malformed operands, opcode 0xFF (R82, R154) -/
  | bad
  deriving DecidableEq, Repr

/-- The instructions of shape `d m` (R64). -/
inductive MemOp where
  | ldr | str
  deriving DecidableEq, Repr

/-- The instructions of shape `d n 2` (R64). -/
inductive Alu3Op where
  | add | sub | and | orr | eor | lsl | lsr
  deriving DecidableEq, Repr

/-- The instructions of shape `d 2` (R64). -/
inductive Alu2Op where
  | mov | mvn
  deriving DecidableEq, Repr

/-- The instructions of shape `l` (R64). -/
inductive BrOp where
  | b | beq | bne | bgt | blt
  deriving DecidableEq, Repr

/-- The 18 mnemonics (R64), grouped by operand shape: also the formats of R76. -/
inductive Mnemonic where
  | mem (o : MemOp)
  | alu3 (o : Alu3Op)
  | alu2 (o : Alu2Op)
  | cmp
  | br (o : BrOp)
  | halt
  deriving DecidableEq, Repr

end Sys2Proof
end

