-- ==== Sys2Proof/Decode.lean ====
section
/-!
DEFINITION. The binary decoder of 30_encoding.md R75 to R84, total on all words, and the encoder after it.
It follows the pseudocode of R84 line by line: format, must-be-zero bits (R79), ranges (R80).
-/
namespace Sys2Proof

/-- The two decode errors of R73. -/
inductive DecodeError where
  /-- a must-be-zero violation or `k >= 2` (R79) -/
  | malformedOperand
  /-- a register index of 16 or more, or a memory index of 256 or more (R80) -/
  | indexOutOfRange
  deriving DecidableEq, Repr

/-- The result of decoding a word (R73, R84). -/
inductive Decoded where
  | ok (i : Instr)
  | error (e : DecodeError)
  deriving DecidableEq, Repr

/-! ## Fields (R75) -/

/-- `op = iw[63:56]` -/
def opField (w : IWord) : BitVec 8 := w.extractLsb' 56 8
/-- `rd = iw[55:48]` -/
def rdField (w : IWord) : BitVec 8 := w.extractLsb' 48 8
/-- `rn = iw[47:40]` -/
def rnField (w : IWord) : BitVec 8 := w.extractLsb' 40 8
/-- `k = iw[39:32]` -/
def kField (w : IWord) : BitVec 8 := w.extractLsb' 32 8
/-- `p = iw[31:0]` -/
def pField (w : IWord) : BitVec 32 := w.extractLsb' 0 32

/-- `iw = op ++ rd ++ rn ++ k ++ p` (R75). -/
def mkWord (op rd rn k : BitVec 8) (p : BitVec 32) : IWord := op ++ rd ++ rn ++ k ++ p

/-! ## Opcode map (R77) -/

/-- What an opcode selects (R77). -/
inductive LineKind where
  | blank
  | label
  | insn (m : Mnemonic)
  | unk
  | bad
  deriving DecidableEq, Repr

/-- The opcode map of R77; every one of the 256 values has a row. -/
def lineKind (op : BitVec 8) : LineKind :=
  match op.toNat with
  | 0x00 => .blank
  | 0x01 => .label
  | 0x02 => .insn (.mem .ldr)
  | 0x03 => .insn (.mem .str)
  | 0x04 => .insn (.alu3 .add)
  | 0x05 => .insn (.alu3 .sub)
  | 0x06 => .insn (.alu3 .and)
  | 0x07 => .insn (.alu3 .orr)
  | 0x08 => .insn (.alu3 .eor)
  | 0x09 => .insn (.alu3 .lsl)
  | 0x0A => .insn (.alu3 .lsr)
  | 0x0B => .insn (.alu2 .mov)
  | 0x0C => .insn (.alu2 .mvn)
  | 0x0D => .insn .cmp
  | 0x0E => .insn (.br .b)
  | 0x0F => .insn (.br .beq)
  | 0x10 => .insn (.br .bne)
  | 0x11 => .insn (.br .bgt)
  | 0x12 => .insn (.br .blt)
  | 0x13 => .insn .halt
  | 0xFF => .bad
  | _ => .unk

/-- The opcode of a mnemonic (R77). -/
def Mnemonic.opcode : Mnemonic → BitVec 8
  | .mem .ldr => 0x02
  | .mem .str => 0x03
  | .alu3 .add => 0x04
  | .alu3 .sub => 0x05
  | .alu3 .and => 0x06
  | .alu3 .orr => 0x07
  | .alu3 .eor => 0x08
  | .alu3 .lsl => 0x09
  | .alu3 .lsr => 0x0A
  | .alu2 .mov => 0x0B
  | .alu2 .mvn => 0x0C
  | .cmp => 0x0D
  | .br .b => 0x0E
  | .br .beq => 0x0F
  | .br .bne => 0x10
  | .br .bgt => 0x11
  | .br .blt => 0x12
  | .halt => 0x13

/-! ## Constructors of R73 by mnemonic -/

def MemOp.instr : MemOp → Reg → MemIx → Instr
  | .ldr => .ldr
  | .str => .str

def Alu3Op.instr : Alu3Op → Reg → Reg → Op2 → Instr
  | .add => .add
  | .sub => .sub
  | .and => .and
  | .orr => .orr
  | .eor => .eor
  | .lsl => .lsl
  | .lsr => .lsr

def Alu2Op.instr : Alu2Op → Reg → Op2 → Instr
  | .mov => .mov
  | .mvn => .mvn

def BrOp.instr : BrOp → LabelId → Instr
  | .b => .b
  | .beq => .beq
  | .bne => .bne
  | .bgt => .bgt
  | .blt => .blt

/-! ## Range checks (R78, R80) -/

/-- The register named by an unsigned index, if it is below 16. -/
def regOf (i : Nat) : Option Reg := if h : i < 16 then some ⟨i, h⟩ else none

/-- The data word named by an unsigned index, if it is below 256. -/
def memIxOf (i : Nat) : Option MemIx := if h : i < 256 then some ⟨i, h⟩ else none

/-- Operand 2 of a word whose `k` is 0 or 1 (R78): the payload itself, or the register it numbers. -/
def op2Of (k : BitVec 8) (p : BitVec 32) : Option Op2 :=
  if k = 0 then some (.imm p) else (regOf p.toNat).map .reg

/-! ## The decoder (R84) -/

def decodeMem (o : MemOp) (rd rn k : BitVec 8) (p : BitVec 32) : Decoded :=
  if rn ≠ 0 ∨ k ≠ 0 then .error .malformedOperand
  else match regOf rd.toNat, memIxOf p.toNat with
    | some d, some a => .ok (o.instr d a)
    | _, _ => .error .indexOutOfRange

def decodeAlu3 (o : Alu3Op) (rd rn k : BitVec 8) (p : BitVec 32) : Decoded :=
  if 2 ≤ k.toNat then .error .malformedOperand
  else match regOf rd.toNat, regOf rn.toNat, op2Of k p with
    | some d, some n, some v => .ok (o.instr d n v)
    | _, _, _ => .error .indexOutOfRange

def decodeAlu2 (o : Alu2Op) (rd rn k : BitVec 8) (p : BitVec 32) : Decoded :=
  if rn ≠ 0 ∨ 2 ≤ k.toNat then .error .malformedOperand
  else match regOf rd.toNat, op2Of k p with
    | some d, some v => .ok (o.instr d v)
    | _, _ => .error .indexOutOfRange

def decodeCmp (rd rn k : BitVec 8) (p : BitVec 32) : Decoded :=
  if rd ≠ 0 ∨ 2 ≤ k.toNat then .error .malformedOperand
  else match regOf rn.toNat, op2Of k p with
    | some n, some v => .ok (.cmp n v)
    | _, _ => .error .indexOutOfRange

def decodeBr (o : BrOp) (rd rn k : BitVec 8) (p : BitVec 32) : Decoded :=
  if rd ≠ 0 ∨ rn ≠ 0 ∨ k ≠ 0 then .error .malformedOperand else .ok (o.instr p)

def decodeHalt (rd rn k : BitVec 8) (p : BitVec 32) : Decoded :=
  if rd ≠ 0 ∨ rn ≠ 0 ∨ k ≠ 0 ∨ p ≠ 0 then .error .malformedOperand else .ok .halt

/-- The decoder on the five fields. -/
def decodeFields (op rd rn k : BitVec 8) (p : BitVec 32) : Decoded :=
  match lineKind op with
  | .blank => .ok .blank
  | .label => .ok (.label p)
  | .bad => .ok .bad
  | .unk => .ok (.unk op)
  | .insn (.mem o) => decodeMem o rd rn k p
  | .insn (.alu3 o) => decodeAlu3 o rd rn k p
  | .insn (.alu2 o) => decodeAlu2 o rd rn k p
  | .insn .cmp => decodeCmp rd rn k p
  | .insn (.br o) => decodeBr o rd rn k p
  | .insn .halt => decodeHalt rd rn k p

/-- `Decode(iw)` of R84: total on all `2^64` words, reads no state. Where R84 answers
`Error(MalformedOperand)` for opcode 0xFF this answers the line `BAD`, which raises it (R154). -/
def decode (w : IWord) : Decoded :=
  decodeFields (opField w) (rdField w) (rnField w) (kField w) (pField w)

/-- The instruction the decoder reads from a table row's word: one word of 64 bits, numbered as the table
numbers it, the bits above `nbits` being 0. There is no byte order to choose (R42). -/
def decodeTableWord (nbits w : Nat) : Option Instr :=
  match decode (BitVec.ofNat 64 (w % 2 ^ nbits)) with
  | .ok i => some i
  | .error _ => none

/-! ## The encoder (R76, R77, R90; fields a format does not use are written as zero) -/

/-- A register index in an 8-bit field (R78). -/
def regField (r : Reg) : BitVec 8 := BitVec.ofNat 8 r.val

/-- The kind field of an operand 2 (R75). -/
def Op2.k : Op2 → BitVec 8
  | .imm _ => 0
  | .reg _ => 1

/-- The payload of an operand 2 (R76, R78). -/
def Op2.p : Op2 → BitVec 32
  | .imm v => v
  | .reg m => BitVec.ofNat 32 m.val

def encMem (o : MemOp) (d : Reg) (a : MemIx) : IWord :=
  mkWord (Mnemonic.mem o).opcode (regField d) 0 0 (BitVec.ofNat 32 a.val)

def encAlu3 (o : Alu3Op) (d n : Reg) (v : Op2) : IWord :=
  mkWord (Mnemonic.alu3 o).opcode (regField d) (regField n) v.k v.p

def encAlu2 (o : Alu2Op) (d : Reg) (v : Op2) : IWord :=
  mkWord (Mnemonic.alu2 o).opcode (regField d) 0 v.k v.p

def encCmp (n : Reg) (v : Op2) : IWord := mkWord Mnemonic.cmp.opcode 0 (regField n) v.k v.p

def encBr (o : BrOp) (l : LabelId) : IWord := mkWord (Mnemonic.br o).opcode 0 0 0 l

/-- The word of a well-formed instruction. -/
def encode : Instr → IWord
  | .ldr d a => encMem .ldr d a
  | .str d a => encMem .str d a
  | .add d n v => encAlu3 .add d n v
  | .sub d n v => encAlu3 .sub d n v
  | .and d n v => encAlu3 .and d n v
  | .orr d n v => encAlu3 .orr d n v
  | .eor d n v => encAlu3 .eor d n v
  | .lsl d n v => encAlu3 .lsl d n v
  | .lsr d n v => encAlu3 .lsr d n v
  | .mov d v => encAlu2 .mov d v
  | .mvn d v => encAlu2 .mvn d v
  | .cmp n v => encCmp n v
  | .b l => encBr .b l
  | .beq l => encBr .beq l
  | .bne l => encBr .bne l
  | .bgt l => encBr .bgt l
  | .blt l => encBr .blt l
  | .halt => mkWord Mnemonic.halt.opcode 0 0 0 0
  | .label l => mkWord 0x01 0 0 0 l
  | .blank => mkWord 0x00 0 0 0 0
  | .unk op => mkWord op 0 0 0 0
  | .bad => mkWord 0xFF 0 0 0 0

/-! ## The opcode table (spec/opcode_table.json) -/

/-- One row of the table: a word `w` belongs to it when `w &&& mask = pattern`. -/
structure OpcodeRow where
  mnemonic : String
  mask : IWord
  pattern : IWord
  deriving DecidableEq, Repr

/-- `w` belongs to the row. -/
def OpcodeRow.covers (r : OpcodeRow) (w : IWord) : Bool := w &&& r.mask == r.pattern

def memRows : List OpcodeRow := [
  ⟨"LDR", 0xFFF0FFFFFFFFFF00#64, 0x0200000000000000#64⟩,
  ⟨"STR", 0xFFF0FFFFFFFFFF00#64, 0x0300000000000000#64⟩]

def alu3Rows : List OpcodeRow := [
  ⟨"ADD", 0xFFF0F0FF00000000#64, 0x0400000000000000#64⟩,
  ⟨"ADD", 0xFFF0F0FFFFFFFFF0#64, 0x0400000100000000#64⟩,
  ⟨"SUB", 0xFFF0F0FF00000000#64, 0x0500000000000000#64⟩,
  ⟨"SUB", 0xFFF0F0FFFFFFFFF0#64, 0x0500000100000000#64⟩,
  ⟨"AND", 0xFFF0F0FF00000000#64, 0x0600000000000000#64⟩,
  ⟨"AND", 0xFFF0F0FFFFFFFFF0#64, 0x0600000100000000#64⟩,
  ⟨"ORR", 0xFFF0F0FF00000000#64, 0x0700000000000000#64⟩,
  ⟨"ORR", 0xFFF0F0FFFFFFFFF0#64, 0x0700000100000000#64⟩,
  ⟨"EOR", 0xFFF0F0FF00000000#64, 0x0800000000000000#64⟩,
  ⟨"EOR", 0xFFF0F0FFFFFFFFF0#64, 0x0800000100000000#64⟩,
  ⟨"LSL", 0xFFF0F0FF00000000#64, 0x0900000000000000#64⟩,
  ⟨"LSL", 0xFFF0F0FFFFFFFFF0#64, 0x0900000100000000#64⟩,
  ⟨"LSR", 0xFFF0F0FF00000000#64, 0x0A00000000000000#64⟩,
  ⟨"LSR", 0xFFF0F0FFFFFFFFF0#64, 0x0A00000100000000#64⟩]

def alu2Rows : List OpcodeRow := [
  ⟨"MOV", 0xFFF0FFFF00000000#64, 0x0B00000000000000#64⟩,
  ⟨"MOV", 0xFFF0FFFFFFFFFFF0#64, 0x0B00000100000000#64⟩,
  ⟨"MVN", 0xFFF0FFFF00000000#64, 0x0C00000000000000#64⟩,
  ⟨"MVN", 0xFFF0FFFFFFFFFFF0#64, 0x0C00000100000000#64⟩]

def cmpRows : List OpcodeRow := [
  ⟨"CMP", 0xFFFFF0FF00000000#64, 0x0D00000000000000#64⟩,
  ⟨"CMP", 0xFFFFF0FFFFFFFFF0#64, 0x0D00000100000000#64⟩]

def branchRows : List OpcodeRow := [
  ⟨"B", 0xFFFFFFFF00000000#64, 0x0E00000000000000#64⟩,
  ⟨"BEQ", 0xFFFFFFFF00000000#64, 0x0F00000000000000#64⟩,
  ⟨"BNE", 0xFFFFFFFF00000000#64, 0x1000000000000000#64⟩,
  ⟨"BGT", 0xFFFFFFFF00000000#64, 0x1100000000000000#64⟩,
  ⟨"BLT", 0xFFFFFFFF00000000#64, 0x1200000000000000#64⟩]

def lineRows : List OpcodeRow := [
  ⟨"BLANK", 0xFF00000000000000#64, 0x0000000000000000#64⟩,
  ⟨"LABEL", 0xFF00000000000000#64, 0x0100000000000000#64⟩,
  ⟨"HALT", 0xFFFFFFFFFFFFFFFF#64, 0x1300000000000000#64⟩,
  ⟨"BAD", 0xFF00000000000000#64, 0xFF00000000000000#64⟩]

def unkRows : List OpcodeRow := [
  ⟨"UNK", 0xFC00000000000000#64, 0x1400000000000000#64⟩,
  ⟨"UNK", 0xF800000000000000#64, 0x1800000000000000#64⟩,
  ⟨"UNK", 0xE000000000000000#64, 0x2000000000000000#64⟩,
  ⟨"UNK", 0xC000000000000000#64, 0x4000000000000000#64⟩,
  ⟨"UNK", 0xC000000000000000#64, 0x8000000000000000#64⟩,
  ⟨"UNK", 0xE000000000000000#64, 0xC000000000000000#64⟩,
  ⟨"UNK", 0xF000000000000000#64, 0xE000000000000000#64⟩,
  ⟨"UNK", 0xF800000000000000#64, 0xF000000000000000#64⟩,
  ⟨"UNK", 0xFC00000000000000#64, 0xF800000000000000#64⟩,
  ⟨"UNK", 0xFE00000000000000#64, 0xFC00000000000000#64⟩,
  ⟨"UNK", 0xFF00000000000000#64, 0xFE00000000000000#64⟩]

/-- The 42 rows of the table. -/
def opcodeTable : List OpcodeRow :=
  memRows ++ alu3Rows ++ alu2Rows ++ cmpRows ++ branchRows ++ lineRows ++ unkRows

/-- The table's mnemonic of an instruction. -/
def Instr.mnemonic : Instr → String
  | .ldr _ _ => "LDR"
  | .str _ _ => "STR"
  | .add _ _ _ => "ADD"
  | .sub _ _ _ => "SUB"
  | .and _ _ _ => "AND"
  | .orr _ _ _ => "ORR"
  | .eor _ _ _ => "EOR"
  | .lsl _ _ _ => "LSL"
  | .lsr _ _ _ => "LSR"
  | .mov _ _ => "MOV"
  | .mvn _ _ => "MVN"
  | .cmp _ _ => "CMP"
  | .b _ => "B"
  | .beq _ => "BEQ"
  | .bne _ => "BNE"
  | .bgt _ => "BGT"
  | .blt _ => "BLT"
  | .halt => "HALT"
  | .label _ => "LABEL"
  | .blank => "BLANK"
  | .unk _ => "UNK"
  | .bad => "BAD"

end Sys2Proof
end

