-- ==== Sys2Proof/Config.lean ====
section
/-!
DEFINITION. What is fixed for one hardware unit and is not state (00_scope.md R5, 92_eei_decisions.md).
-/
namespace Sys2Proof

/-- The two fills LSR may have for a negative `Rn` (44_shift.md R128, D18). -/
inductive LsrMode where
  | logical
  | arithmetic
  deriving DecidableEq, Repr, Inhabited

namespace Config

/-- `LSR_MODE`, a property of the hardware unit (R201 item 4) that the spec leaves `OPEN` (R5, R128, D18).
It has no body: a claim about this machine holds for both modes. Log 3. -/
opaque lsrMode : LsrMode

/-- The largest program length `N` (R5, R12, D9). -/
def maxLines : Nat := 65535

end Config
end Sys2Proof
end

