-- ==== Sys2Proof/Machine/State.lean ====
section
/-!
DEFINITION. The state of the machine (10_state.md), as plain data, and its reset value (R29).
The last two fields are inputs that stay constant during a run (R20, R26); they stand here because a step of
this package is a function of the state alone (log 2).
-/
namespace Sys2Proof.Machine

/-- The comparison flag (R14). -/
inductive Flag where
  | unset
  | equal
  | less
  | greater
  deriving DecidableEq, Repr

/-- The six causes of a fatal condition (R170). -/
inductive FatalCause where
  | pcOutOfRange
  | unknownMnemonic
  | malformedOperand
  | indexOutOfRange
  | unknownLabel
  | shiftAmountOutOfRange
  deriving DecidableEq, Repr

/-- The data memory (R19, R41, R42), word by word: pairs of an index and the word there, indices strictly
rising and below 256, no word equal to what an unlisted index reads as. Log 1. -/
abbrev Memory := List (Nat × Word)

/-- The machine's state. -/
structure State where
  /-- `x[0]` to `x[15]` (R10) -/
  regs : Vector Word 16
  /-- the 256 data memory words (R19) -/
  mem : Memory
  /-- the comparison flag latch (R14) -/
  flag : Flag
  /-- the program counter, a line index (R12) -/
  pc : LineIndex
  /-- the Running flag (R16) -/
  running : Bool
  /-- the FAULT register (R17); `none` is `NONE` -/
  fault : Option FatalCause
  /-- input: the program, `N` words (R20, R26 `prog_len` and `prog_data`) -/
  prog : List IWord
  /-- input: STRICT (R26) -/
  strict : Bool
  deriving DecidableEq, Repr

/-- The ways a step could stop without a next state. There is none: each fatal condition of the spec writes
`Running` and `FAULT` and is a next state (R176), and "nothing in this machine is stuck"
(93_implementation_defined.md section 2). Log 9. -/
inductive Fault where
  deriving DecidableEq, Repr

/-- Why the model gives no next state. -/
inductive Refusal where
  /-- An arm of `exec` that has no meaning yet. Nobody raises it: every arm has its meaning. Safe. -/
  | notModelled (mnemonic : String)
  /-- Raised by `step` alone, when the program has more than 65535 lines (D9; 93_implementation_defined.md S10,
  treatment `refuse`). The hardware cannot hold such a program. Safe. -/
  | programTooLong
  deriving DecidableEq, Repr

/-- What one instruction or one step answers. -/
abbrev StepResult := Host.Outcome State Fault Refusal

/-- The state after reset (R29): registers and data memory 0, flag UNSET, pc 0, Running 1, FAULT NONE.
The inputs are not reset state (R29): no program is loaded, and STRICT has its default 0 (R5). Log 2. -/
def State.reset : State where
  regs := Vector.replicate 16 0
  mem := []
  flag := .unset
  pc := 0
  running := true
  fault := none
  prog := []
  strict := false

end Sys2Proof.Machine
end

