-- ==== Sys2Proof/Machine/Ops.lean ====
section
/-!
DEFINITION. The operations every instruction shares: registers, data memory, the program counter and the fatal
outcome. There is no return from a fatal condition (R179), so none stands beside it.
-/
namespace Sys2Proof.Machine

/-! ## Registers (R8, R10): all 16 are ordinary, none is hard-wired -/

/-- `x[r]` -/
def State.reg (s : State) (r : Reg) : Word := s.regs[r.val]'r.isLt

/-- `x[r] <- v` -/
def State.setReg (s : State) (r : Reg) (v : Word) : State :=
  { s with regs := s.regs.set r.val v r.isLt }

/-! ## Data memory (R8, R19, R41 to R44): whole words at word indices -/

/-- What a word never written reads as: 0, its reset value (R29, R46). -/
def Memory.unlisted : Word := 0

/-- The word at index `a`. -/
def Memory.read : Memory → Nat → Word
  | [], _ => Memory.unlisted
  | (b, w) :: m, a => if b = a then w else Memory.read m a

/-- One entry in front of the rest, or none when it would say what is unlisted anyway. -/
def Memory.entry (a : Nat) (v : Word) (m : Memory) : Memory :=
  if v = Memory.unlisted then m else (a, v) :: m

/-- The memory with word `a` replaced by `v`, in canonical form again. -/
def Memory.write : Memory → Nat → Word → Memory
  | [], a, v => Memory.entry a v []
  | (b, w) :: m, a, v =>
    if a < b then Memory.entry a v ((b, w) :: m)
    else if a = b then Memory.entry a v m
    else (b, w) :: Memory.write m a v

/-- The canonical form from index `lo` on. -/
def Memory.wfFrom : Nat → Memory → Bool
  | _, [] => true
  | lo, (b, w) :: m => lo ≤ b && b < 256 && w != Memory.unlisted && Memory.wfFrom (b + 1) m

/-- The canonical form of a data memory (log 1). -/
def Memory.wf (m : Memory) : Bool := Memory.wfFrom 0 m

/-- `MemRead(a, 32)` -/
def State.memWord (s : State) (a : MemIx) : Word := Memory.read s.mem a.val

/-- `MemWrite(a, 32, v)` -/
def State.setMem (s : State) (a : MemIx) (v : Word) : State :=
  { s with mem := Memory.write s.mem a.val v }

/-! ## The program counter (R13, R105) -/

/-- `pc <- pc + 1`. It does not wrap in a step: a line was fetched, so `pc < N <= 65535` (R12). -/
def State.advance (s : State) : State := { s with pc := s.pc + 1 }

/-- `pc <- t` -/
def State.jump (s : State) (t : LineIndex) : State := { s with pc := t }

/-- `flag <- f` -/
def State.setFlag (s : State) (f : Flag) : State := { s with flag := f }

/-- `Running <- 0` with nothing else: HALT (R150). -/
def State.stop (s : State) : State := { s with running := false }

/-! ## Fatal conditions (R170, R176) -/

/-- `raise E`: `Running <- 0`, `FAULT <- code(E)`, every other piece of state held, `pc` included (R176). -/
def State.raise (s : State) (c : FatalCause) : State :=
  { s with running := false, fault := some c }

/-- The cause a decode error raises (R100, R172, R173). -/
def decodeCause : DecodeError → FatalCause
  | .malformedOperand => .malformedOperand
  | .indexOutOfRange => .indexOutOfRange

/-- The codes of R17 and R170. -/
def faultCode : Option FatalCause → BitVec 4
  | none => 0
  | some .pcOutOfRange => 1
  | some .unknownMnemonic => 2
  | some .malformedOperand => 3
  | some .indexOutOfRange => 4
  | some .unknownLabel => 5
  | some .shiftAmountOutOfRange => 6

end Sys2Proof.Machine
end

