-- ==== Sys2Proof/Machine/Operands.lean ====
section
/-!
DEFINITION. The value of operand 2 (R104) and the ALU functions of R115 to R131, each written as the spec writes
it: over the mathematical integers or bit by bit, then narrowed to 32 bits.
-/
namespace Sys2Proof.Machine

/-- `val(op2)` (R104), the one way an instruction uses its operand 2. -/
def State.val (s : State) : Op2 → Word
  | .imm v => v
  | .reg m => s.reg m

/-- `wrap32(z)` (R7): the word whose unsigned reading is `z mod 2^32`. -/
def wrap32 (z : Int) : Word := BitVec.ofInt 32 z

/-- ADD (R116). -/
def aluAdd (a b : Word) : Word := wrap32 (a.toInt + b.toInt)

/-- SUB (R117): `Rn` minus operand 2. -/
def aluSub (a b : Word) : Word := wrap32 (a.toInt - b.toInt)

/-- AND (R121). -/
def aluAnd (a b : Word) : Word := a &&& b

/-- ORR (R122). -/
def aluOrr (a b : Word) : Word := a ||| b

/-- EOR (R123). -/
def aluEor (a b : Word) : Word := a ^^^ b

/-- MVN (R131). -/
def aluNot (a : Word) : Word := ~~~a

/-- The shift amount of LSL and LSR is legal (R127): `0 <= signed(val(op2)) <= 31`. -/
def shiftInRange (b : Word) : Bool := 0 ≤ b.toInt && b.toInt ≤ 31

/-- LSL by `n` (R126): `wrap32(unsigned(x[n]) * 2^s)`. -/
def aluLsl (a : Word) (n : Nat) : Word := wrap32 ((a.toNat : Int) * 2 ^ n)

/-- LSR by `n` (R128): `floor(unsigned(x[n]) / 2^s)`, or `wrap32(floor(signed(x[n]) / 2^s))`. -/
def aluLsr (mode : LsrMode) (a : Word) (n : Nat) : Word :=
  match mode with
  | .logical => wrap32 ((a.toNat : Int) / 2 ^ n)
  | .arithmetic => wrap32 (a.toInt / 2 ^ n)

/-- `x[d] <- f(x[n], val(op2))`, `pc <- pc + 1`; both operands are read before the write (R206). -/
def State.alu3 (s : State) (f : Word → Word → Word) (d n : Reg) (o : Op2) : State :=
  (s.setReg d (f (s.reg n) (s.val o))).advance

/-- `x[d] <- f(val(op2))`, `pc <- pc + 1`. -/
def State.alu2 (s : State) (f : Word → Word) (d : Reg) (o : Op2) : State :=
  (s.setReg d (f (s.val o))).advance

/-- `x[d] <- f(x[n], s)` for a shift amount `s = val(op2)` in 0..31, else ShiftAmountOutOfRange before any write
(R126 to R128, R103). -/
def State.shift (s : State) (f : Word → Nat → Word) (d n : Reg) (o : Op2) : State :=
  if shiftInRange (s.val o) then s.alu3 (fun a b => f a b.toNat) d n o
  else s.raise .shiftAmountOutOfRange

end Sys2Proof.Machine
end

