-- ==== Sys2Proof/Machine/Arithmetic.lean ====
section
/-!
DEFINITION. ADD and SUB (42_arithmetic.md). Neither writes the flag, and overflow is no fatal condition (R115).
-/
namespace Sys2Proof.Machine

/-- ADD (R116): `x[d] <- wrap32(signed(x[n]) + signed(val(op2)))`. -/
def execAdd (d n : Reg) (o : Op2) (s : State) : StepResult := .next (s.alu3 aluAdd d n o)

/-- SUB (R117): `x[d] <- wrap32(signed(x[n]) - signed(val(op2)))`. -/
def execSub (d n : Reg) (o : Op2) (s : State) : StepResult := .next (s.alu3 aluSub d n o)

end Sys2Proof.Machine
end

