-- ==== Sys2Proof/Machine/Bitwise.lean ====
section
/-!
DEFINITION. AND, ORR and EOR (43_bitwise.md), bit by bit on the two's complement words (R120).
-/
namespace Sys2Proof.Machine

/-- AND (R121). -/
def execAnd (d n : Reg) (o : Op2) (s : State) : StepResult := .next (s.alu3 aluAnd d n o)

/-- ORR (R122). -/
def execOrr (d n : Reg) (o : Op2) (s : State) : StepResult := .next (s.alu3 aluOrr d n o)

/-- EOR (R123). -/
def execEor (d n : Reg) (o : Op2) (s : State) : StepResult := .next (s.alu3 aluEor d n o)

end Sys2Proof.Machine
end

