-- ==== Sys2Proof/Machine/Flags.lean ====
section
/-!
DEFINITION. The comparison flag: what CMP computes (R135), what each branch tests (R141 to R146), its two bits at
the ports (R15).
-/
namespace Sys2Proof.Machine

/-- The outcome of comparing two words as signed integers (R135); never UNSET. -/
def compareFlag (a b : Word) : Flag :=
  if a.toInt < b.toInt then .less
  else if a.toInt > b.toInt then .greater
  else .equal

/-- Whether a branch is taken (R140 to R144): the pseudocode's conditions. -/
def branchTaken : BrOp → Flag → Bool
  | .b, _ => true
  | .beq, f => f == .equal
  | .bne, f => f == .less || f == .greater
  | .bgt, f => f == .greater
  | .blt, f => f == .less

/-- The flag latch's two bits (R15). -/
def Flag.bits : Flag → BitVec 2
  | .unset => 0b00
  | .equal => 0b01
  | .less => 0b10
  | .greater => 0b11

end Sys2Proof.Machine
end

