-- ==== Sys2Proof/Machine/LabelIndex.lean ====
section
/-!
DEFINITION. The label index (30_encoding.md R92, 10_state.md R21): a map from labels to line indices, built from the
program in one pass, the last declaration of a label winning (D8). The builder serves both levels: label ids
at the binary level, label names at the text level.
-/
namespace Sys2Proof.Machine

/-- A label index: each label at most once, with the line index it stands for. -/
abbrev LabelMap (L : Type) := List (L × LineIndex)

/-- The entry of a label, or none. -/
def LabelMap.lookup {L : Type} [DecidableEq L] : LabelMap L → L → Option LineIndex
  | [], _ => none
  | (k, t) :: m, l => if k = l then some t else LabelMap.lookup m l

/-- `LabelIndex(l) <- t`: overwrites an earlier entry for `l`. -/
def LabelMap.insert {L : Type} [DecidableEq L] : LabelMap L → L → LineIndex → LabelMap L
  | [], l, t => [(l, t)]
  | (k, u) :: m, l, t => if k = l then (l, t) :: m else (k, u) :: LabelMap.insert m l t

/-- The loop of R92 from line `i` on: a line that declares `l` maps `l` to `i + 1`. -/
def buildLabelIndex {A L : Type} [DecidableEq L] (declares : A → Option L) :
    Nat → List A → LabelMap L → LabelMap L
  | _, [], m => m
  | i, x :: xs, m =>
    match declares x with
    | some l => buildLabelIndex declares (i + 1) xs (m.insert l (BitVec.ofNat 16 (i + 1)))
    | none => buildLabelIndex declares (i + 1) xs m

/-- The label a word declares: `Decode(iw) = LABEL(l)`. -/
def labelOfWord (w : IWord) : Option LabelId :=
  match decode w with
  | .ok (.label l) => some l
  | _ => none

/-- The label-index ROM of a program (R92). -/
def labelRom (prog : List IWord) : LabelMap LabelId := buildLabelIndex labelOfWord 0 prog []

/-- `LabelIndex(l)`: the line after the label's last declaration, or none (R8, R92). -/
def labelIndex (prog : List IWord) (l : LabelId) : Option LineIndex := (labelRom prog).lookup l

/-- A branch to a label whose entry is `target` (R102, R105, R145): without an entry it is UnknownLabel whether
taken or not, with one it sets `pc` to it when taken and advances when not. -/
def State.branch (s : State) (taken : Bool) (target : Option LineIndex) : State :=
  match target with
  | none => s.raise .unknownLabel
  | some t => if taken then s.jump t else s.advance

end Sys2Proof.Machine
end

