-- ==== Sys2Proof/Machine/Branch.lean ====
section
/-!
DEFINITION. The five branches (47_branch.md). The label is looked up whether or not the branch is taken (R102, R145).
-/
namespace Sys2Proof.Machine

/-- A branch of kind `o` to label id `l`. -/
def State.branchTo (s : State) (o : BrOp) (l : LabelId) : State :=
  s.branch (branchTaken o s.flag) (labelIndex s.prog l)

/-- B (R140). -/
def execB (l : LabelId) (s : State) : StepResult := .next (s.branchTo .b l)

/-- BEQ (R141). -/
def execBeq (l : LabelId) (s : State) : StepResult := .next (s.branchTo .beq l)

/-- BNE (R142). -/
def execBne (l : LabelId) (s : State) : StepResult := .next (s.branchTo .bne l)

/-- BGT (R143). -/
def execBgt (l : LabelId) (s : State) : StepResult := .next (s.branchTo .bgt l)

/-- BLT (R144). -/
def execBlt (l : LabelId) (s : State) : StepResult := .next (s.branchTo .blt l)

end Sys2Proof.Machine
end

