-- ==== Sys2Proof/Machine/Compare.lean ====
section
/-!
DEFINITION. CMP (46_compare.md): the one writer of the flag.
-/
namespace Sys2Proof.Machine

/-- CMP (R135). -/
def execCmp (n : Reg) (o : Op2) (s : State) : StepResult :=
  .next (s.setFlag (compareFlag (s.reg n) (s.val o))).advance

end Sys2Proof.Machine
end

