-- ==== Sys2Proof/Machine/HaltAndLines.lean ====
section
/-!
DEFINITION. HALT and the non-executable line kinds (48_halt_and_nonexec.md).
-/
namespace Sys2Proof.Machine

/-- HALT (R150): `Running <- 0`, everything else held, `pc` included. -/
def execHalt (s : State) : StepResult := .next s.stop

/-- LABEL (R151): only `pc` moves; the label works through the label index. -/
def execLabel (_l : LabelId) (s : State) : StepResult := .next s.advance

/-- BLANK (R152): only `pc` moves, in both modes. -/
def execBlank (s : State) : StepResult := .next s.advance

/-- UNK (R153): UnknownMnemonic when STRICT = 1, else only `pc` moves; its opcode changes nothing (R81). -/
def execUnk (_op : BitVec 8) (s : State) : StepResult :=
  .next (if s.strict then s.raise .unknownMnemonic else s.advance)

/-- BAD (R154): always MalformedOperand. -/
def execBad (s : State) : StepResult := .next (s.raise .malformedOperand)

end Sys2Proof.Machine
end

