-- ==== Sys2Proof/Machine/LoadStore.lean ====
section
/-!
DEFINITION. LDR and STR (41_load_store.md).
-/
namespace Sys2Proof.Machine

/-- LDR (R110): `x[d] <- MemRead(a, 32)`, `pc <- pc + 1`. -/
def execLdr (d : Reg) (a : MemIx) (s : State) : StepResult :=
  .next (s.setReg d (s.memWord a)).advance

/-- STR (R111): `MemWrite(a, 32, x[d])`, `pc <- pc + 1`. -/
def execStr (d : Reg) (a : MemIx) (s : State) : StepResult :=
  .next (s.setMem a (s.reg d)).advance

end Sys2Proof.Machine
end

