-- ==== Sys2Proof/Machine/Move.lean ====
section
/-!
DEFINITION. MOV and MVN (45_move.md).
-/
namespace Sys2Proof.Machine

/-- MOV (R130): `x[d] <- val(op2)`. -/
def execMov (d : Reg) (o : Op2) (s : State) : StepResult := .next (s.alu2 id d o)

/-- MVN (R131): the bitwise complement. -/
def execMvn (d : Reg) (o : Op2) (s : State) : StepResult := .next (s.alu2 aluNot d o)

end Sys2Proof.Machine
end

