-- ==== Sys2Proof/Machine/Shift.lean ====
section
/-!
DEFINITION. LSL and LSR (44_shift.md). An amount outside 0..31 is fatal (R127).
-/
namespace Sys2Proof.Machine

/-- LSL (R126). -/
def execLsl (d n : Reg) (o : Op2) (s : State) : StepResult := .next (s.shift aluLsl d n o)

/-- LSR (R128), its fill the `OPEN` parameter `LSR_MODE` (log 3). -/
def execLsr (d n : Reg) (o : Op2) (s : State) : StepResult :=
  .next (s.shift (aluLsr Config.lsrMode) d n o)

end Sys2Proof.Machine
end

