-- ==== Sys2Proof/Machine/Dispatch.lean ====
section
/-!
DEFINITION. One arm per constructor of `Instr`, each one call of its meaning: the `Execute` of 40_step_cycle.md R100.
-/
namespace Sys2Proof.Machine

def exec (i : Instr) (s : State) : Host.Outcome State Fault Refusal :=
  match i with
  | .ldr d a => Sys2Proof.Machine.execLdr d a s
  | .str d a => Sys2Proof.Machine.execStr d a s
  | .add d n o => Sys2Proof.Machine.execAdd d n o s
  | .sub d n o => Sys2Proof.Machine.execSub d n o s
  | .and d n o => Sys2Proof.Machine.execAnd d n o s
  | .orr d n o => Sys2Proof.Machine.execOrr d n o s
  | .eor d n o => Sys2Proof.Machine.execEor d n o s
  | .lsl d n o => Sys2Proof.Machine.execLsl d n o s
  | .lsr d n o => Sys2Proof.Machine.execLsr d n o s
  | .mov d o => Sys2Proof.Machine.execMov d o s
  | .mvn d o => Sys2Proof.Machine.execMvn d o s
  | .cmp n o => Sys2Proof.Machine.execCmp n o s
  | .b l => Sys2Proof.Machine.execB l s
  | .beq l => Sys2Proof.Machine.execBeq l s
  | .bne l => Sys2Proof.Machine.execBne l s
  | .bgt l => Sys2Proof.Machine.execBgt l s
  | .blt l => Sys2Proof.Machine.execBlt l s
  | .halt => Sys2Proof.Machine.execHalt s
  | .label l => Sys2Proof.Machine.execLabel l s
  | .blank => Sys2Proof.Machine.execBlank s
  | .unk op => Sys2Proof.Machine.execUnk op s
  | .bad => Sys2Proof.Machine.execBad s

end Sys2Proof.Machine
end

