-- ==== Sys2Proof/Machine/Fetch.lean ====
section
/-!
DEFINITION. The program as the machine fetches from it (20_memory.md R40, R48; 40_step_cycle.md R101).
-/
namespace Sys2Proof.Machine

/-- `Prog[pc]`, or none when `pc >= N` (R101). -/
def State.fetch (s : State) : Option IWord := s.prog[s.pc.toNat]?

/-- A program with line `n` replaced by `w`; lines missing before it are blank (opcode 0x00, R152). -/
def placeLine : List IWord → Nat → IWord → List IWord
  | [], 0, w => [w]
  | _ :: ls, 0, w => w :: ls
  | [], n + 1, w => 0 :: placeLine [] n w
  | l :: ls, n + 1, w => l :: placeLine ls n w

/-- The line `placeFetch` writes: `pc`, or 0 where no line of that index can exist (R12: indices are below 65535). -/
def State.placePc (s : State) : LineIndex := if s.pc.toNat < Config.maxLines then s.pc else 0

/-- `s` running, with `w` on the line it fetches next. -/
def State.placeFetch (s : State) (w : IWord) : State :=
  { s with
    prog := (placeLine s.prog s.placePc.toNat w).take Config.maxLines
    pc := s.placePc
    running := true
    fault := none }

end Sys2Proof.Machine
end

