-- ==== Sys2Proof/WellFormed.lean ====
section
/-!
DEFINITION. Which terms of `Instr` stand for a line of a program, and which programs the hardware takes.
Register numbers, memory indices and immediates are bounded by their types (R73), so the one field left
to check is the opcode of an unrecognized line (R81).
-/
namespace Sys2Proof

/-- `op` is one of the reserved opcodes 0x14 to 0xFE of R81. -/
def reservedOpcode (op : BitVec 8) : Bool := 0x14 ≤ op.toNat && op.toNat ≤ 0xFE

/-- The well-formed instructions. -/
def Instr.wf : Instr → Bool
  | .ldr _ _ => true
  | .str _ _ => true
  | .add _ _ _ => true
  | .sub _ _ _ => true
  | .and _ _ _ => true
  | .orr _ _ _ => true
  | .eor _ _ _ => true
  | .lsl _ _ _ => true
  | .lsr _ _ _ => true
  | .mov _ _ => true
  | .mvn _ _ => true
  | .cmp _ _ => true
  | .b _ => true
  | .beq _ => true
  | .bne _ => true
  | .bgt _ => true
  | .blt _ => true
  | .halt => true
  | .label _ => true
  | .blank => true
  | .unk op => reservedOpcode op
  | .bad => true

/-- A program the hardware takes: `N <= 65535` lines (R5, R12, R201 item 1). -/
def programWf (prog : List IWord) : Bool := prog.length ≤ Config.maxLines

end Sys2Proof
end

