-- ==== Sys2Proof/Machine/Step.lean ====
section
/-!
DEFINITION. One step of the machine (40_step_cycle.md R100), and the placing of a word where it is fetched next.
-/
namespace Sys2Proof.Machine

/-- `Step()` of R100. A program over 65535 lines is refused (D9; log 4). A halted machine does nothing (D11). Each fatal
condition is a next state (R176): here those of the fetch and of decode, in `exec` the others; a line has one decoded
form, so the order of R178 is the order of the cases. -/
def step (s : State) : Host.Outcome State Fault Refusal :=
  if Config.maxLines < s.prog.length then .refused .programTooLong
  else if s.running = false then .next s
  else
    match s.fetch with
    | none => .next (s.raise .pcOutOfRange)
    | some w =>
      match decode w with
      | .error e => .next (s.raise (decodeCause e))
      | .ok i => exec i s

/-- `s` with a word placed on the line `step` fetches next (log 10): the line `pc` of the program, blank lines filling up
to it where the program is shorter. A machine that has stopped does not fetch, so it runs; a line 65535 cannot exist, so
such a `pc` becomes 0 and no program grows over the bound. On a running machine inside its program nothing but
that line changes. -/
def State.withFetchWord (s : State) (nbits w : Nat) : State :=
  s.placeFetch (BitVec.ofNat 64 (w % 2 ^ nbits))

end Sys2Proof.Machine
end

