-- ==== Sys2Proof/Machine/Control.lean ====
section
/-!
DEFINITION. The control signals a decoded line drives (30_encoding.md R85, with the block's parts of 00_scope.md R2) and the
single-cycle datapath they steer (R206): a second description of the machine, in the table's own terms.
-/
namespace Sys2Proof.Machine

/-- The ALU functions of R85, the signed compare among them. -/
inductive AluFn where
  | add | subtract | and | or | exclusiveOr | shiftLeft | shiftRight | passOp2 | notOp2 | signedCompare
  deriving DecidableEq, Repr

/-- The data memory column. -/
inductive MemSignal where
  | idle
  | read (a : MemIx)
  | write (a : MemIx)
  deriving DecidableEq, Repr

/-- The pc source column. -/
inductive PcSource where
  | next
  | target (o : BrOp) (l : LabelId)
  | hold
  deriving DecidableEq, Repr

/-- One row of R85; `none` and `idle` are its dashes. -/
structure Controls where
  regRead1 : Option Reg
  regRead2 : Option Op2
  alu : Option AluFn
  regWrite : Option Reg
  mem : MemSignal
  flagWrite : Bool
  pcSource : PcSource
  /-- the Running column says `<- 0` -/
  clearRunning : Bool
  deriving DecidableEq, Repr

/-- A line that only moves `pc` to the next. -/
def idleControls : Controls := ⟨none, none, none, none, .idle, false, .next, false⟩

/-- An ALU line with two sources. -/
def aluControls (f : AluFn) (d n : Reg) (o : Op2) : Controls :=
  { idleControls with regRead1 := some n, regRead2 := some o, alu := some f, regWrite := some d }

/-- The table of R85. -/
def controls : Instr → Controls
  | .ldr d a => { idleControls with regWrite := some d, mem := .read a }
  | .str d a => { idleControls with regRead1 := some d, mem := .write a }
  | .add d n o => aluControls .add d n o
  | .sub d n o => aluControls .subtract d n o
  | .and d n o => aluControls .and d n o
  | .orr d n o => aluControls .or d n o
  | .eor d n o => aluControls .exclusiveOr d n o
  | .lsl d n o => aluControls .shiftLeft d n o
  | .lsr d n o => aluControls .shiftRight d n o
  | .mov d o => { idleControls with regRead2 := some o, alu := some .passOp2, regWrite := some d }
  | .mvn d o => { idleControls with regRead2 := some o, alu := some .notOp2, regWrite := some d }
  | .cmp n o => { idleControls with
      regRead1 := some n, regRead2 := some o, alu := some .signedCompare, flagWrite := true }
  | .b l => { idleControls with pcSource := .target .b l }
  | .beq l => { idleControls with pcSource := .target .beq l }
  | .bne l => { idleControls with pcSource := .target .bne l }
  | .bgt l => { idleControls with pcSource := .target .bgt l }
  | .blt l => { idleControls with pcSource := .target .blt l }
  | .halt => { idleControls with pcSource := .hold, clearRunning := true }
  | .label _ => idleControls
  | .blank => idleControls
  | .unk _ => idleControls
  | .bad => idleControls

/-- A port of the register file: what it puts on its bus when inactive is never used. -/
def State.port1 (s : State) : Option Reg → Word
  | some r => s.reg r
  | none => 0

/-- The second port: a register, or the immediate (R85, last paragraph). -/
def State.port2 (s : State) : Option Op2 → Word
  | some o => s.val o
  | none => 0

/-- The ALU's word output (adders and shifters on the bit patterns). -/
def aluOut : Option AluFn → Word → Word → Word
  | some .add, a, b => a + b
  | some .subtract, a, b => a - b
  | some .and, a, b => a &&& b
  | some .or, a, b => a ||| b
  | some .exclusiveOr, a, b => a ^^^ b
  | some .shiftLeft, a, b => a <<< b.toNat
  | some .shiftRight, a, b =>
    match Config.lsrMode with
    | .logical => a >>> b.toNat
    | .arithmetic => a.sshiftRight b.toNat
  | some .passOp2, _, b => b
  | some .notOp2, _, b => ~~~b
  | some .signedCompare, _, _ => 0
  | none, _, _ => 0

/-- The comparator's output. -/
def compareOut (a b : Word) : Flag := if a.slt b then .less else if a = b then .equal else .greater

/-- A line raises a fatal condition while executing (the last row of R85): the cause, if any. -/
def executeFault (s : State) : Instr → Option FatalCause
  | .lsl _ _ o => if shiftInRange (s.val o) then none else some .shiftAmountOutOfRange
  | .lsr _ _ o => if shiftInRange (s.val o) then none else some .shiftAmountOutOfRange
  | .b l => if (labelIndex s.prog l).isSome then none else some .unknownLabel
  | .beq l => if (labelIndex s.prog l).isSome then none else some .unknownLabel
  | .bne l => if (labelIndex s.prog l).isSome then none else some .unknownLabel
  | .bgt l => if (labelIndex s.prog l).isSome then none else some .unknownLabel
  | .blt l => if (labelIndex s.prog l).isSome then none else some .unknownLabel
  | .unk _ => if s.strict then some .unknownMnemonic else none
  | .bad => some .malformedOperand
  | .ldr _ _ => none
  | .str _ _ => none
  | .add _ _ _ => none
  | .sub _ _ _ => none
  | .and _ _ _ => none
  | .orr _ _ _ => none
  | .eor _ _ _ => none
  | .mov _ _ => none
  | .mvn _ _ => none
  | .cmp _ _ => none
  | .halt => none
  | .label _ => none
  | .blank => none

/-- The word written back to the register file. -/
def Controls.writeBack (c : Controls) (s : State) : Word :=
  match c.mem with
  | .read a => s.memWord a
  | _ => aluOut c.alu (s.port1 c.regRead1) (s.port2 c.regRead2)

/-- The data memory after the edge. -/
def Controls.memOut (c : Controls) (s : State) : Memory :=
  match c.mem with
  | .write a => Memory.write s.mem a.val (s.port1 c.regRead1)
  | _ => s.mem

/-- The program counter after the edge (R105). -/
def Controls.pcOut (c : Controls) (s : State) : LineIndex :=
  match c.pcSource with
  | .next => s.pc + 1
  | .hold => s.pc
  | .target o l => if branchTaken o s.flag then (labelIndex s.prog l).getD (s.pc + 1) else s.pc + 1

/-- All writes of a line that raises nothing, taking effect together (R206). -/
def datapath (c : Controls) (s : State) : State :=
  { s with
    regs := match c.regWrite with
      | some d => s.regs.set d.val (c.writeBack s) d.isLt
      | none => s.regs
    mem := c.memOut s
    flag := if c.flagWrite then compareOut (s.port1 c.regRead1) (s.port2 c.regRead2) else s.flag
    pc := c.pcOut s
    running := if c.clearRunning then false else s.running }

end Sys2Proof.Machine
end

