-- ==== Sys2Proof/Machine/Text.lean ====
section
/-!
DEFINITION. The text level (30_encoding.md Part 1, R60 to R73): how a line of text is classified and decoded. A line
is a string of characters, held as a list (log 13); how raw text becomes lines is out of scope (R3, R60).
-/
namespace Sys2Proof.Machine

/-- A line, a token or a label name. -/
abbrev Chars := List Char

/-! ## Whitespace and tokens (R61) -/

/-- The six whitespace characters. -/
def isSpace (c : Char) : Bool :=
  c.toNat == 0x20 || c.toNat == 0x09 || c.toNat == 0x0A || c.toNat == 0x0B || c.toNat == 0x0C || c.toNat == 0x0D

/-- `trim(s)`. -/
def trim (s : Chars) : Chars := ((s.dropWhile isSpace).reverse.dropWhile isSpace).reverse

/-- Put a token in front of the others unless it is empty. -/
def consToken (t : Chars) (ts : List Chars) : List Chars := if t.isEmpty then ts else t :: ts

/-- The token being read and the tokens after it, of the text `s`. -/
def splitTokens : Chars → Chars × List Chars
  | [] => ([], [])
  | c :: cs =>
    let r := splitTokens cs
    if isSpace c then ([], consToken r.1 r.2) else (c :: r.1, r.2)

/-- `tokens(t)`: `t` split at maximal runs of whitespace. -/
def tokens (t : Chars) : List Chars := consToken (splitTokens t).1 (splitTokens t).2

/-! ## Label lines (R63) -/

/-- The name a trimmed line declares: no whitespace, one `:`, which is its last character, at least two characters. -/
def labelDecl (t : Chars) : Option Chars :=
  if !t.any isSpace && t.getLast? == some ':' && t.count ':' == 1 && 2 ≤ t.length then some t.dropLast else none

/-! ## Mnemonics (R64) -/

/-- The exact upper-case spelling of each mnemonic. -/
def Mnemonic.name : Mnemonic → Chars
  | .mem .ldr => ['L', 'D', 'R']
  | .mem .str => ['S', 'T', 'R']
  | .alu3 .add => ['A', 'D', 'D']
  | .alu3 .sub => ['S', 'U', 'B']
  | .alu3 .and => ['A', 'N', 'D']
  | .alu3 .orr => ['O', 'R', 'R']
  | .alu3 .eor => ['E', 'O', 'R']
  | .alu3 .lsl => ['L', 'S', 'L']
  | .alu3 .lsr => ['L', 'S', 'R']
  | .alu2 .mov => ['M', 'O', 'V']
  | .alu2 .mvn => ['M', 'V', 'N']
  | .cmp => ['C', 'M', 'P']
  | .br .b => ['B']
  | .br .beq => ['B', 'E', 'Q']
  | .br .bne => ['B', 'N', 'E']
  | .br .bgt => ['B', 'G', 'T']
  | .br .blt => ['B', 'L', 'T']
  | .halt => ['H', 'A', 'L', 'T']

/-- The closed table: exactly 18 mnemonics, in the order of R64. -/
def allMnemonics : List Mnemonic :=
  [.mem .ldr, .mem .str, .alu3 .add, .alu3 .sub, .alu3 .and, .alu3 .orr, .alu3 .eor, .alu3 .lsl, .alu3 .lsr] ++
  [.alu2 .mov, .alu2 .mvn, .cmp, .br .b, .br .beq, .br .bne, .br .bgt, .br .blt, .halt]

/-- The mnemonic a token spells, matched exactly (D22). -/
def mnemonicOf (t : Chars) : Option Mnemonic := allMnemonics.find? (fun m => Mnemonic.name m == t)

/-! ## Operand tokens (R66 to R70) -/

/-- An operand 2 as written, before its range is checked: registers are unbounded numbers (R67). -/
inductive RawOp2 where
  | imm (v : Int)
  | reg (m : Nat)
  deriving DecidableEq, Repr

/-- Well-formed operands by shape (R64), before ranges are checked. -/
inductive RawOperands where
  | mem (o : MemOp) (d a : Nat)
  | alu3 (o : Alu3Op) (d n : Nat) (v : RawOp2)
  | alu2 (o : Alu2Op) (d : Nat) (v : RawOp2)
  | cmp (n : Nat) (v : RawOp2)
  | br (o : BrOp) (name : Chars)
  | halt
  deriving DecidableEq, Repr

/-- An ASCII decimal digit. -/
def isDigit (c : Char) : Bool := 0x30 ≤ c.toNat && c.toNat ≤ 0x39

/-- The value of a digit. -/
def digitValue (c : Char) : Nat := c.toNat - 0x30

/-- The number a string of digits spells, the leading digit first. -/
def digitsValue (t : Chars) : Nat := t.foldl (fun n c => 10 * n + digitValue c) 0

/-- One or more decimal digits and nothing else, read as an unbounded number (R67, R69). -/
def parseNat (t : Chars) : Option Nat :=
  if !t.isEmpty && t.all isDigit then some (digitsValue t) else none

/-- A register token: `R` and digits (R67); the number may be 16 or more. -/
def parseReg : Chars → Option Nat
  | 'R' :: ds => parseNat ds
  | _ => none

/-- The number of an immediate token after its `#`: an optional `-` and digits (R68). -/
def parseSigned : Chars → Option Int
  | '-' :: ds => (parseNat ds).map (fun n => -(n : Int))
  | ds => (parseNat ds).map (fun n => (n : Int))

/-- An immediate must fit signed 32 bits (R68, D19). -/
def immInRange (v : Int) : Bool := -2147483648 ≤ v && v ≤ 2147483647

/-- An operand-2 token (R68). -/
def parseOp2 : Chars → Option RawOp2
  | '#' :: ds =>
    match parseSigned ds with
    | some v => if immInRange v then some (.imm v) else none
    | none => none
  | t => (parseReg t).map .reg

/-- A non-final operand token ends with a comma, and exactly that comma is removed (R66). -/
def stripComma (t : Chars) : Option Chars := if t.getLast? = some ',' then some t.dropLast else none

/-- The operand tokens with the comma of every one but the last removed (R66). -/
def stripCommas : List Chars → Option (List Chars)
  | [] => some []
  | [t] => some [t]
  | t :: ts =>
    match stripComma t, stripCommas ts with
    | some u, some us => some (u :: us)
    | _, _ => none

/-- The operands of a mnemonic from its tokens without their commas: the count and each token must fit the shape
(R65, R67 to R70). -/
def parseShape : Mnemonic → List Chars → Option RawOperands
  | .mem o, [d, a] =>
    match parseReg d, parseNat a with
    | some d, some a => some (.mem o d a)
    | _, _ => none
  | .alu3 o, [d, n, v] =>
    match parseReg d, parseReg n, parseOp2 v with
    | some d, some n, some v => some (.alu3 o d n v)
    | _, _, _ => none
  | .alu2 o, [d, v] =>
    match parseReg d, parseOp2 v with
    | some d, some v => some (.alu2 o d v)
    | _, _ => none
  | .cmp, [n, v] =>
    match parseReg n, parseOp2 v with
    | some n, some v => some (.cmp n v)
    | _, _ => none
  | .br o, [l] => some (.br o l)
  | .halt, [] => some .halt
  | _, _ => none

/-- The operands of a recognised instruction line, or none where it is malformed (R65 to R71). -/
def parseOperands (m : Mnemonic) (ops : List Chars) : Option RawOperands :=
  match stripCommas ops with
  | some ts => parseShape m ts
  | none => none

/-! ## Classification of a line (R62) -/

/-- What a line of text is (R62). `malformed` is a recognised mnemonic with malformed operands. -/
inductive TextLine where
  | blank
  | label (name : Chars)
  | unk
  | malformed
  | insn (r : RawOperands)
  deriving DecidableEq, Repr

/-- An instruction line from its tokens (R62 cases 3 and 4); the operands of an UNK line are never examined. -/
def classifyTokens : List Chars → TextLine
  | [] => .blank
  | m :: ops =>
    match mnemonicOf m with
    | none => .unk
    | some m =>
      match parseOperands m ops with
      | some r => .insn r
      | none => .malformed

/-- The classification of a line: the first matching case of R62. -/
def classify (s : Chars) : TextLine :=
  if (trim s).isEmpty then .blank
  else
    match labelDecl (trim s) with
    | some name => .label name
    | none => classifyTokens (tokens (trim s))

/-! ## Decoding a line (R71, R73) -/

/-- The range check of operand 2 (R71). -/
def RawOp2.check : RawOp2 → Option Op2
  | .imm v => some (.imm (wrap32 v))
  | .reg m => (regOf m).map .reg

/-- The range checks of R71 on well-formed operands, with each label name replaced by the id `ids` gives it (R93). -/
def RawOperands.check (ids : Chars → LabelId) : RawOperands → Decoded
  | .mem o d a =>
    match regOf d, memIxOf a with
    | some d, some a => .ok (o.instr d a)
    | _, _ => .error .indexOutOfRange
  | .alu3 o d n v =>
    match regOf d, regOf n, v.check with
    | some d, some n, some v => .ok (o.instr d n v)
    | _, _, _ => .error .indexOutOfRange
  | .alu2 o d v =>
    match regOf d, v.check with
    | some d, some v => .ok (o.instr d v)
    | _, _ => .error .indexOutOfRange
  | .cmp n v =>
    match regOf n, v.check with
    | some n, some v => .ok (.cmp n v)
    | _, _ => .error .indexOutOfRange
  | .br o name => .ok (o.instr (ids name))
  | .halt => .ok .halt

/-- The line of a classification (R71, R73): MalformedOperand before IndexOutOfRange. An UNK line is the reserved
opcode 0x14 that `Asm` emits (R81), a malformed line the line BAD (R82). -/
def TextLine.decode (ids : Chars → LabelId) : TextLine → Decoded
  | .blank => .ok .blank
  | .label name => .ok (.label (ids name))
  | .unk => .ok (.unk 0x14)
  | .malformed => .ok .bad
  | .insn r => r.check ids

/-- The text-level decode of a line (R62 to R73), label names replaced by `ids`. -/
def textDecode (ids : Chars → LabelId) (s : Chars) : Decoded := (classify s).decode ids

end Sys2Proof.Machine
end

