-- ==== Sys2Proof/Machine/Assembler.lean ====
section
/-!
DEFINITION. The assembler `Asm` (30_encoding.md R90), the label ids (R91), the label index of a text program (R92) and
the canonical spelling of an instruction (R94).
-/
namespace Sys2Proof.Machine

/-! ## Label ids (R91) -/

/-- The label name on a line that R91 scans: a declaration's or a branch's. -/
def scannedName (s : Chars) : Option Chars :=
  match classify s with
  | .label name => some name
  | .insn (.br _ name) => some name
  | _ => none

/-- The names of a program in the order of their first occurrence, after those already met. -/
def scanNames : List Chars → List Chars → List Chars
  | met, [] => met
  | met, s :: ss =>
    match scannedName s with
    | some name => scanNames (if met.contains name then met else met ++ [name]) ss
    | none => scanNames met ss

/-- The canonical `id` of R91: a name's place among the names of the program. -/
def labelIds (lines : List Chars) (name : Chars) : LabelId :=
  BitVec.ofNat 32 ((scanNames [] lines).idxOf name)

/-! ## Assembling a line (R90) -/

/-- An index in an 8-bit field, clamped so that out of range stays out of range. -/
def clamp8 (i : Nat) : BitVec 8 := BitVec.ofNat 8 (min i 255)

/-- An index in the payload, clamped likewise. -/
def clamp32 (i : Nat) : BitVec 32 := BitVec.ofNat 32 (min i (2 ^ 32 - 1))

/-- The kind field of an operand 2. -/
def RawOp2.k : RawOp2 → BitVec 8
  | .imm _ => 0
  | .reg _ => 1

/-- The payload of an operand 2. -/
def RawOp2.p : RawOp2 → BitVec 32
  | .imm v => wrap32 v
  | .reg m => clamp32 m

/-- The word of a recognised mnemonic with well-formed operands, in range or not. -/
def RawOperands.word (ids : Chars → LabelId) : RawOperands → IWord
  | .mem o d a => mkWord (Mnemonic.mem o).opcode (clamp8 d) 0 0 (clamp32 a)
  | .alu3 o d n v => mkWord (Mnemonic.alu3 o).opcode (clamp8 d) (clamp8 n) v.k v.p
  | .alu2 o d v => mkWord (Mnemonic.alu2 o).opcode (clamp8 d) 0 v.k v.p
  | .cmp n v => mkWord Mnemonic.cmp.opcode 0 (clamp8 n) v.k v.p
  | .br o name => mkWord (Mnemonic.br o).opcode 0 0 0 (ids name)
  | .halt => mkWord Mnemonic.halt.opcode 0 0 0 0

/-- The table of R90. -/
def TextLine.word (ids : Chars → LabelId) : TextLine → IWord
  | .blank => 0x0000000000000000
  | .label name => mkWord 0x01 0 0 0 (ids name)
  | .unk => 0x1400000000000000
  | .malformed => 0xFF00000000000000
  | .insn r => r.word ids

/-- `Asm` with given label ids: one word per line, same indices. -/
def asmWith (ids : Chars → LabelId) (lines : List Chars) : List IWord :=
  lines.map (fun s => (classify s).word ids)

/-- `Asm` with the canonical label ids (R90, R91). -/
def asm (lines : List Chars) : List IWord := asmWith (labelIds lines) lines

/-! ## The label index of a text program (R92) -/

/-- The name a line declares: the line is LABEL(name) by R63. -/
def labelOfText (s : Chars) : Option Chars :=
  match classify s with
  | .label name => some name
  | _ => none

/-- The text-level label index. -/
def textLabelIndex (lines : List Chars) (name : Chars) : Option LineIndex :=
  (buildLabelIndex labelOfText 0 lines []).lookup name

/-! ## The canonical spelling (R94) -/

/-- The decimal digits of a number, at most `fuel` of them. -/
def decimalFuel : Nat → Nat → Chars
  | 0, _ => []
  | fuel + 1, n =>
    if n < 10 then [Char.ofNat (0x30 + n)]
    else decimalFuel fuel (n / 10) ++ [Char.ofNat (0x30 + n % 10)]

/-- The decimal spelling of a number (`n + 1` digits are always enough). -/
def decimal (n : Nat) : Chars := decimalFuel (n + 1) n

/-- `Rn`. -/
def spellReg (r : Reg) : Chars := 'R' :: decimal r.val

/-- `#n` or `Rn`. -/
def spellOp2 : Op2 → Chars
  | .imm v => '#' :: (if v.toInt < 0 then '-' :: decimal v.toInt.natAbs else decimal v.toInt.natAbs)
  | .reg m => spellReg m

/-- One space after the mnemonic and one after each comma. -/
def spellWith (m : Mnemonic) (ops : List Chars) : Chars :=
  Mnemonic.name m ++
    match ops with
    | [] => []
    | _ => ' ' :: [',', ' '].intercalate ops

/-- The canonical spelling of a line, label ids spelt by `names`. UNK and BAD lines have none of their own: R94 and R72
show the UNK line `NOP`, R65 the malformed line `HALT now`. -/
def spell (names : LabelId → Chars) : Instr → Chars
  | .ldr d a => spellWith (.mem .ldr) [spellReg d, decimal a.val]
  | .str d a => spellWith (.mem .str) [spellReg d, decimal a.val]
  | .add d n o => spellWith (.alu3 .add) [spellReg d, spellReg n, spellOp2 o]
  | .sub d n o => spellWith (.alu3 .sub) [spellReg d, spellReg n, spellOp2 o]
  | .and d n o => spellWith (.alu3 .and) [spellReg d, spellReg n, spellOp2 o]
  | .orr d n o => spellWith (.alu3 .orr) [spellReg d, spellReg n, spellOp2 o]
  | .eor d n o => spellWith (.alu3 .eor) [spellReg d, spellReg n, spellOp2 o]
  | .lsl d n o => spellWith (.alu3 .lsl) [spellReg d, spellReg n, spellOp2 o]
  | .lsr d n o => spellWith (.alu3 .lsr) [spellReg d, spellReg n, spellOp2 o]
  | .mov d o => spellWith (.alu2 .mov) [spellReg d, spellOp2 o]
  | .mvn d o => spellWith (.alu2 .mvn) [spellReg d, spellOp2 o]
  | .cmp n o => spellWith .cmp [spellReg n, spellOp2 o]
  | .b l => spellWith (.br .b) [names l]
  | .beq l => spellWith (.br .beq) [names l]
  | .bne l => spellWith (.br .bne) [names l]
  | .bgt l => spellWith (.br .bgt) [names l]
  | .blt l => spellWith (.br .blt) [names l]
  | .halt => spellWith .halt []
  | .label l => names l ++ [':']
  | .blank => []
  | .unk _ => ['N', 'O', 'P']
  | .bad => ['H', 'A', 'L', 'T', ' ', 'n', 'o', 'w']

end Sys2Proof.Machine
end

