-- ==== Sys2Proof/Machine/TextMachine.lean ====
section
/-!
DEFINITION. The machine at the text level (00_scope.md R6, 40_step_cycle.md R100): a step reads a line of text and finds
labels by name, without the assembler. The state is the same; its `prog` is not read.
-/
namespace Sys2Proof.Machine

/-- A branch line of the text level: the label is looked up by name (R70, R71, R102). -/
def State.branchToName (s : State) (lines : List Chars) (o : BrOp) (name : Chars) : State :=
  s.branch (branchTaken o s.flag) (textLabelIndex lines name)

/-- The step on one classified line. Outside the five branches no label is looked up, so the id a name stands for is
never read there (R151). -/
def textExec (lines : List Chars) (s : State) : TextLine → StepResult
  | .insn (.br o name) => .next (s.branchToName lines o name)
  | l =>
    match l.decode (fun _ => 0) with
    | .error e => .next (s.raise (decodeCause e))
    | .ok i => exec i s

/-- One step of a text program (R100). -/
def textStep (lines : List Chars) (s : State) : StepResult :=
  if Config.maxLines < lines.length then .refused .programTooLong
  else if s.running = false then .next s
  else
    match lines[s.pc.toNat]? with
    | none => .next (s.raise .pcOutOfRange)
    | some line => textExec lines s (classify line)

end Sys2Proof.Machine
end

