-- ==== Sys2Proof/Machine/Ports.lean ====
section
/-!
DEFINITION. The signals of the block (10_state.md R26 to R28) and the host contract (70_reset_and_hazards.md R200 to
R202): what one rising edge of `clk` does, and what the host reads between edges.
-/
namespace Sys2Proof.Machine

/-- The inputs sampled at a rising edge (R26). The constant inputs `STRICT`, `prog_len`, `prog_data` and the label ROM are
held in the state, so no edge can change them (R201; 93_implementation_defined.md S13; log 11). -/
structure Inputs where
  rst : Bool
  stepEn : Bool
  dbgWe : Bool
  dbgSel : Bool
  dbgAddr : BitVec 8
  dbgWdata : Word
  deriving DecidableEq, Repr

/-- What the host can read (R26, R27). -/
structure Outputs where
  progAddr : LineIndex
  lblId : Option LabelId
  running : Bool
  fault : BitVec 4
  flag : BitVec 2
  pc : LineIndex
  dbgRdata : Word
  deriving DecidableEq, Repr

/-- `x[dbg_addr[3:0]]` names this register (R27). -/
def dbgReg (a : BitVec 8) : Reg := ⟨(a.extractLsb' 0 4).toNat, (a.extractLsb' 0 4).isLt⟩

/-- `MemRead(dbg_addr, 32)` names this data word (R27). -/
def dbgMem (a : BitVec 8) : MemIx := ⟨a.toNat, a.isLt⟩

/-- `construct(program_text)` (R200 to R202): reset with a program loaded and STRICT chosen. -/
def construct (prog : List IWord) (strict : Bool) : State :=
  { State.reset with prog := prog, strict := strict }

/-- The effect of `rst = 1` (R29, R200): every piece of state takes its reset value, the inputs stay. -/
def State.resetEdge (s : State) : State := construct s.prog s.strict

/-- The preload port (R28): one register or one data word. -/
def State.preload (s : State) (sel : Bool) (addr : BitVec 8) (v : Word) : State :=
  if sel then s.setMem (dbgMem addr) v else s.setReg (dbgReg addr) v

/-- One rising edge: reset first (R200), then the step (R26; a preload together with it is ignored, R28), then the
preload, else everything holds. -/
def edge (i : Inputs) (s : State) : StepResult :=
  if i.rst then .next s.resetEdge
  else if i.stepEn then step s
  else if i.dbgWe then .next (s.preload i.dbgSel i.dbgAddr i.dbgWdata)
  else .next s

/-- Edges one after another. -/
def edges : List Inputs → State → StepResult
  | [], s => .next s
  | i :: is, s =>
    match edge i s with
    | .next t => edges is t
    | .fault r => .fault r
    | .refused r => .refused r

/-- The word at `dbg_rdata` (R27). -/
def State.inspect (s : State) (sel : Bool) (addr : BitVec 8) : Word :=
  if sel then s.memWord (dbgMem addr) else s.reg (dbgReg addr)

/-- `lbl_id`: the label id field of the word being decoded (R26), which in a running machine is the word at `pc`. On a stopped
machine no word is decoded (R100) and the spec names no value: the model goes on showing the field of the word at `pc`
(DESIGN CHOICE, log 12, unsafe). None where `pc >= N` (DEDUCED, log 12). -/
def State.lblId (s : State) : Option LabelId := s.fetch.map pField

/-- `lbl_hit` and `lbl_target` for a label id (R21, R26): the ROM's answer. -/
def State.lblRom (s : State) (l : LabelId) : Option LineIndex := labelIndex s.prog l

/-- `prog_len` (R26). -/
def State.progLen (s : State) : BitVec 16 := BitVec.ofNat 16 s.prog.length

/-- The outputs, a function of the state and the inspection inputs alone (R27). -/
def outputs (s : State) (sel : Bool) (addr : BitVec 8) : Outputs where
  progAddr := s.pc
  lblId := s.lblId
  running := s.running
  fault := faultCode s.fault
  flag := s.flag.bits
  pc := s.pc
  dbgRdata := s.inspect sel addr

end Sys2Proof.Machine
end

