-- ==== Sys2Proof/Safety.lean ====
section
/-!
DEFINITION. What a run is and what holds in every state of one (10_state.md R30, 40_step_cycle.md R106).
-/
namespace Sys2Proof.Machine

/-- The invariant of R30: the data memory is in its canonical form, the program fits (R12), `pc <= N`, and
`FAULT != NONE` only in a stopped machine. -/
structure State.Inv (s : State) : Prop where
  memWf : Memory.wf s.mem = true
  progWf : programWf s.prog = true
  pcLe : s.pc.toNat ≤ s.prog.length
  faultStops : s.fault ≠ none → s.running = false

/-- The step of `s` fetches the word `w` (R100, R101): it runs, its program fits, and line `pc` is `w`. -/
structure State.Fetches (s : State) (w : IWord) : Prop where
  progWf : programWf s.prog = true
  running : s.running = true
  line : s.prog[s.pc.toNat]? = some w

/-- The register an instruction writes, when it raises nothing (R11). -/
def dest : Instr → Option Reg
  | .ldr d _ => some d
  | .str _ _ => none
  | .add d _ _ => some d
  | .sub d _ _ => some d
  | .and d _ _ => some d
  | .orr d _ _ => some d
  | .eor d _ _ => some d
  | .lsl d _ _ => some d
  | .lsr d _ _ => some d
  | .mov d _ => some d
  | .mvn d _ => some d
  | .cmp _ _ => none
  | .b _ => none
  | .beq _ => none
  | .bne _ => none
  | .bgt _ => none
  | .blt _ => none
  | .halt => none
  | .label _ => none
  | .blank => none
  | .unk _ => none
  | .bad => none

/-- `k` steps, one after another (R106). -/
def run : Nat → State → StepResult
  | 0, s => .next s
  | k + 1, s =>
    match step s with
    | .next t => run k t
    | .fault r => .fault r
    | .refused r => .refused r

/-- The states a host can bring the machine to (R202): construct it with a program that fits, then any edges. -/
inductive Reachable : State → Prop where
  | construct (prog : List IWord) (strict : Bool) (fits : programWf prog = true) :
      Reachable (construct prog strict)
  | edge (i : Inputs) (s t : State) (reached : Reachable s) (goes : edge i s = .next t) : Reachable t

end Sys2Proof.Machine
end

