-- ==== Sys2Proof/Certificates/Slice0/Obligations.lean ====
section
/-!
DEFINITION. The statements for the provers, from the numbered rules of spec/. The names under `Sys2Proof.Claims` say once
what a next state is (its result and its frame); the definitions after them are the obligations.
-/
namespace Sys2Proof.Claims
open Sys2Proof.Machine

/-! ## Results with their frames -/

/-- `t` is `s` with `x[d] = v` and `pc` advanced; every other register, every data word, the flag, Running, FAULT and the
inputs are as before. -/
structure RegResult (s t : State) (d : Reg) (v : Word) : Prop where
  dest : t.reg d = v
  otherRegs : ∀ r, r ≠ d → t.reg r = s.reg r
  mem : ∀ a, t.memWord a = s.memWord a
  flag : t.flag = s.flag
  pc : t.pc = s.pc + 1
  running : t.running = s.running
  fault : t.fault = s.fault
  prog : t.prog = s.prog
  strict : t.strict = s.strict

/-- `t` is `s` with data word `a` equal to `v` and `pc` advanced; every other data word and all else is as before. -/
structure MemResult (s t : State) (a : MemIx) (v : Word) : Prop where
  stored : t.memWord a = v
  otherWords : ∀ b, b ≠ a → t.memWord b = s.memWord b
  regs : ∀ r, t.reg r = s.reg r
  flag : t.flag = s.flag
  pc : t.pc = s.pc + 1
  running : t.running = s.running
  fault : t.fault = s.fault
  prog : t.prog = s.prog
  strict : t.strict = s.strict

/-- `t` is `s` with the flag `f` and `pc` advanced; all else is as before. -/
structure FlagResult (s t : State) (f : Flag) : Prop where
  flag : t.flag = f
  regs : ∀ r, t.reg r = s.reg r
  mem : ∀ a, t.memWord a = s.memWord a
  pc : t.pc = s.pc + 1
  running : t.running = s.running
  fault : t.fault = s.fault
  prog : t.prog = s.prog
  strict : t.strict = s.strict

/-- `t` is `s` with `pc = p`; all else is as before. -/
structure PcResult (s t : State) (p : LineIndex) : Prop where
  pc : t.pc = p
  regs : ∀ r, t.reg r = s.reg r
  mem : ∀ a, t.memWord a = s.memWord a
  flag : t.flag = s.flag
  running : t.running = s.running
  fault : t.fault = s.fault
  prog : t.prog = s.prog
  strict : t.strict = s.strict

/-- `t` is `s` stopped, with FAULT as given; all else, `pc` included, is as before. HALT keeps FAULT, a fatal condition
sets it. -/
structure StopResult (s t : State) (f : Option FatalCause) : Prop where
  running : t.running = false
  fault : t.fault = f
  regs : ∀ r, t.reg r = s.reg r
  mem : ∀ a, t.memWord a = s.memWord a
  flag : t.flag = s.flag
  pc : t.pc = s.pc
  prog : t.prog = s.prog
  strict : t.strict = s.strict

/-- The fatal outcome `raise c` of R176. -/
def FatalResult (s t : State) (c : FatalCause) : Prop := StopResult s t (some c)

/-- The step of `s` is the fatal outcome with cause `c`. -/
def FatalStep (s : State) (c : FatalCause) : Prop := ∃ t, step s = .next t ∧ FatalResult s t c

/-! ## Words, by the numbers of R77 and the tables of R76 -/

/-- Opcode groups by format (R77). -/
def isMem (w : IWord) : Prop := (opField w).toNat = 0x02 ∨ (opField w).toNat = 0x03
def isAlu3 (w : IWord) : Prop := 0x04 ≤ (opField w).toNat ∧ (opField w).toNat ≤ 0x0A
def isAlu2 (w : IWord) : Prop := (opField w).toNat = 0x0B ∨ (opField w).toNat = 0x0C
def isCmp (w : IWord) : Prop := (opField w).toNat = 0x0D
def isBr (w : IWord) : Prop := 0x0E ≤ (opField w).toNat ∧ (opField w).toNat ≤ 0x12
def isHalt (w : IWord) : Prop := (opField w).toNat = 0x13
def isShift (w : IWord) : Prop := (opField w).toNat = 0x09 ∨ (opField w).toNat = 0x0A

/-- One of the 18 mnemonic opcodes. -/
def isMnemonic (w : IWord) : Prop := 0x02 ≤ (opField w).toNat ∧ (opField w).toNat ≤ 0x13

/-- A field that the format marks 0 is not zero, or `k` is 2 or more where 0 and 1 are allowed (R76, R79). -/
def mustBeZeroViolated (w : IWord) : Prop :=
  (isMem w ∧ (rnField w ≠ 0 ∨ kField w ≠ 0)) ∨
  (isAlu3 w ∧ 2 ≤ (kField w).toNat) ∨
  (isAlu2 w ∧ (rnField w ≠ 0 ∨ 2 ≤ (kField w).toNat)) ∨
  (isCmp w ∧ (rdField w ≠ 0 ∨ 2 ≤ (kField w).toNat)) ∨
  (isBr w ∧ (rdField w ≠ 0 ∨ rnField w ≠ 0 ∨ kField w ≠ 0)) ∨
  (isHalt w ∧ (rdField w ≠ 0 ∨ rnField w ≠ 0 ∨ kField w ≠ 0 ∨ pField w ≠ 0))

/-- A register index of 16 or more, or a memory index of 256 or more, in a field the format uses (R80). -/
def indexTooBig (w : IWord) : Prop :=
  ((isMem w ∨ isAlu3 w ∨ isAlu2 w) ∧ 16 ≤ (rdField w).toNat) ∨
  ((isAlu3 w ∨ isCmp w) ∧ 16 ≤ (rnField w).toNat) ∨
  ((isAlu3 w ∨ isAlu2 w ∨ isCmp w) ∧ kField w = 1 ∧ 16 ≤ (pField w).toNat) ∨
  (isMem w ∧ 256 ≤ (pField w).toNat)

/-- The shift amount a shift word names: its payload, or the register its payload numbers. -/
def rawAmount (s : State) (w : IWord) : Word :=
  if kField w = 0 then pField w else s.reg (Fin.ofNat 16 (pField w).toNat)

/-- Whether a cause applies to the fetched word, each cause by itself (R170). PcOutOfRange applies to no fetched word. -/
def Applies (s : State) (w : IWord) : FatalCause → Prop
  | .pcOutOfRange => False
  | .unknownMnemonic => s.strict = true ∧ 0x14 ≤ (opField w).toNat ∧ (opField w).toNat ≤ 0xFE
  | .malformedOperand => (opField w).toNat = 0xFF ∨ mustBeZeroViolated w
  | .indexOutOfRange => indexTooBig w
  | .unknownLabel => isBr w ∧ labelIndex s.prog (pField w) = none
  | .shiftAmountOutOfRange => isShift w ∧ ((rawAmount s w).toInt < 0 ∨ 31 < (rawAmount s w).toInt)

/-- The place of a cause in the order of R178. -/
def rank : FatalCause → Nat
  | .pcOutOfRange => 0
  | .unknownMnemonic => 1
  | .malformedOperand => 2
  | .indexOutOfRange => 3
  | .unknownLabel => 4
  | .shiftAmountOutOfRange => 5

/-! ## Register operands, by the table of R11 -/

/-- The register an operand 2 reads. -/
def op2Sources : Op2 → List Reg
  | .imm _ => []
  | .reg m => [m]

/-- The registers an instruction reads (R11). -/
def sources : Instr → List Reg
  | .ldr _ _ => []
  | .str d _ => [d]
  | .add _ n o => n :: op2Sources o
  | .sub _ n o => n :: op2Sources o
  | .and _ n o => n :: op2Sources o
  | .orr _ n o => n :: op2Sources o
  | .eor _ n o => n :: op2Sources o
  | .lsl _ n o => n :: op2Sources o
  | .lsr _ n o => n :: op2Sources o
  | .mov _ o => op2Sources o
  | .mvn _ o => op2Sources o
  | .cmp n o => n :: op2Sources o
  | .b _ => []
  | .beq _ => []
  | .bne _ => []
  | .bgt _ => []
  | .blt _ => []
  | .halt => []
  | .label _ => []
  | .blank => []
  | .unk _ => []
  | .bad => []

/-! ## Branches, compares, memory accounting -/

/-- The decision table of R146, entry by entry. -/
def takenTable : Flag → BrOp → Bool
  | .unset, .b => true
  | .unset, .beq => false
  | .unset, .bne => false
  | .unset, .bgt => false
  | .unset, .blt => false
  | .equal, .b => true
  | .equal, .beq => true
  | .equal, .bne => false
  | .equal, .bgt => false
  | .equal, .blt => false
  | .less, .b => true
  | .less, .beq => false
  | .less, .bne => true
  | .less, .bgt => false
  | .less, .blt => true
  | .greater, .b => true
  | .greater, .beq => false
  | .greater, .bne => true
  | .greater, .bgt => true
  | .greater, .blt => false

/-- The step of `s` executes a CMP. -/
def ExecutesCompare (s : State) : Prop := ∃ w n o, s.Fetches w ∧ decode w = .ok (.cmp n o)

/-- Data word `a` after one edge, given its value before: 0 after a reset, the register a STR names, the preloaded
word, else the old value (R28, R29, R46). -/
def wordAfter (i : Inputs) (s : State) (a : MemIx) (old : Word) : Word :=
  if i.rst then 0
  else if i.stepEn then
    if s.running then
      match s.prog[s.pc.toNat]?.map decode with
      | some (.ok (.str d b)) => if b = a then s.reg d else old
      | _ => old
    else old
  else if i.dbgWe && i.dbgSel && i.dbgAddr.toNat == a.val then i.dbgWdata
  else old

/-- Data word `a` after edges, its value carried from write to write and never read from the memory. -/
def wordAfterAll : List Inputs → State → MemIx → Word → Word
  | [], _, _, old => old
  | i :: is, s, a, old =>
    match edge i s with
    | .next t => wordAfterAll is t a (wordAfter i s a old)
    | .fault _ => old
    | .refused _ => old

end Sys2Proof.Claims

open Sys2Proof Sys2Proof.Machine Sys2Proof.Claims

/-! ## Encoding (30_encoding.md R75 to R84; Part 2 of that file is the spec's own choice, D2 to D7) -/

/-- Decoding the word of a well-formed instruction gives the instruction back, for every operand value (R76 to R78, R84). -/
def Obligations.DecodeOfEncodeIsTheInstruction : Prop :=
  ∀ i : Instr, i.wf = true → decode (encode i) = .ok i

/-- Every decoded instruction is well-formed, and a word of one of the 18 mnemonic opcodes that decodes to an instruction
is that instruction's word: no instruction has two spellings (R79, D5). -/
def Obligations.NoInstructionHasTwoWords : Prop :=
  ∀ (w : IWord) (i : Instr), decode w = .ok i → i.wf = true ∧ (isMnemonic w → encode i = w)

/-- Words written out in the spec (41 to 48, 95_test_vectors.md) decode to the lines they stand for. The form of the last two
lines is the model's own (DESIGN CHOICE, log 7): UNK keeps its opcode, where the spec's UNK has no argument (R73), and
opcode 0xFF is the line BAD, where the spec's decoder answers MalformedOperand (R82, R84). -/
def Obligations.WrittenOutWordsDecode : Prop :=
  decode 0x020000000000002A = .ok (.ldr 0 42) ∧
  decode 0x03000000000000FF = .ok (.str 0 255) ∧
  decode 0x0307000000000000 = .ok (.str 7 0) ∧
  decode 0x0401010000000001 = .ok (.add 1 1 (.imm 1)) ∧
  decode 0x0502030100000004 = .ok (.sub 2 3 (.reg 4)) ∧
  decode 0x0603010100000002 = .ok (.and 3 1 (.reg 2)) ∧
  decode 0x0704010100000002 = .ok (.orr 4 1 (.reg 2)) ∧
  decode 0x0805010100000002 = .ok (.eor 5 1 (.reg 2)) ∧
  decode 0x0900010000000001 = .ok (.lsl 0 1 (.imm 1)) ∧
  decode 0x0A08040000000008 = .ok (.lsr 8 4 (.imm 8)) ∧
  decode 0x0B000000FFFFFFFF = .ok (.mov 0 (.imm (-1))) ∧
  decode 0x0C0300010000000F = .ok (.mvn 3 (.reg 15)) ∧
  decode 0x0D000F00FFFFFFFB = .ok (.cmp 15 (.imm (-5))) ∧
  decode 0x0E00000000000002 = .ok (.b 2) ∧
  decode 0x0F00000000000000 = .ok (.beq 0) ∧
  decode 0x1000000000000000 = .ok (.bne 0) ∧
  decode 0x1100000000000001 = .ok (.bgt 1) ∧
  decode 0x1200000000000000 = .ok (.blt 0) ∧
  decode 0x1300000000000000 = .ok .halt ∧
  decode 0x0100000000000001 = .ok (.label 1) ∧
  decode 0x0000000000000000 = .ok .blank ∧
  decode 0x7F123456789ABCDE = .ok (.unk 0x7F) ∧
  decode 0xFFFFFFFFFFFFFFFF = .ok .bad

/-- What R84 answers with an error, exactly: MalformedOperand for a must-be-zero violation of one of the 18 mnemonic opcodes
(R79) and for opcode 0xFF (R82), IndexOutOfRange for an index too big for its field's range where nothing is malformed
(R80). For opcode 0xFF, and for no other, the answer has the model's own form (DESIGN CHOICE, log 7): the line BAD, whose
execution in every state is the fatal outcome MalformedOperand. The layout is the spec's decision D4, D5. -/
def Obligations.DecodeErrorsAreExactlyTheRules : Prop :=
  ∀ w : IWord,
    (decode w = .error .malformedOperand ↔ mustBeZeroViolated w) ∧
    (decode w = .error .indexOutOfRange ↔ ¬ mustBeZeroViolated w ∧ indexTooBig w) ∧
    (decode w = .ok .bad ↔ (opField w).toNat = 0xFF) ∧
    (decode w = .ok .bad → ∀ s : State, ∃ t, exec .bad s = .next t ∧ FatalResult s t .malformedOperand)

/-- The opcode table (spec/opcode_table.json, 42 rows): every word of a row decodes to an instruction of the row's mnemonic,
every word that decodes has a row of that mnemonic, and no word belongs to two rows. -/
def Obligations.OpcodeTableIsTheDecoder : Prop :=
  (∀ r ∈ opcodeTable, ∀ w, r.covers w = true → ∃ i, decode w = .ok i ∧ i.mnemonic = r.mnemonic) ∧
  (∀ w i, decode w = .ok i → ∃ r ∈ opcodeTable, r.covers w = true ∧ i.mnemonic = r.mnemonic) ∧
  opcodeTable.Pairwise (fun r r' => ∀ w, ¬ (r.covers w = true ∧ r'.covers w = true))

/-- The opcodes outside the 18 mnemonics (R77): BLANK, LABEL with its id, UNK and BAD, whatever the other bits are. The form
of the last two is the model's own (DESIGN CHOICE, log 7): UNK keeps its opcode, where the spec's UNK has no argument
(R73, R81), and opcode 0xFF is the line BAD, where the spec's decoder answers MalformedOperand (R82). -/
def Obligations.IgnoredBitsChangeNothing : Prop :=
  ∀ w : IWord,
    ((opField w).toNat = 0x00 → decode w = .ok .blank) ∧
    ((opField w).toNat = 0x01 → decode w = .ok (.label (pField w))) ∧
    (0x14 ≤ (opField w).toNat → (opField w).toNat ≤ 0xFE → decode w = .ok (.unk (opField w))) ∧
    ((opField w).toNat = 0xFF → decode w = .ok .bad)

/-! ## The step (40_step_cycle.md, 60_exceptions.md) -/

/-- When the line at `pc` decodes to an instruction, the step is that instruction's execution, with nothing around it (R100). -/
def Obligations.StepRunsDecodedInstruction : Prop :=
  ∀ (s : State) (w : IWord) (i : Instr), s.Fetches w → decode w = .ok i → step s = exec i s

/-- A decode error of the fetched word is the fatal outcome of the same name (R100; R172, R173 at the binary level). -/
def Obligations.StepRaisesDecodeErrors : Prop :=
  ∀ (s : State) (w : IWord), s.Fetches w →
    (decode w = .error .malformedOperand → FatalStep s .malformedOperand) ∧
    (decode w = .error .indexOutOfRange → FatalStep s .indexOutOfRange)

/-- R171: a step with `pc >= N` is PcOutOfRange, distinct from a clean HALT by its FAULT. It follows a reset with an empty
program, a fall off the last line, and a branch to a label declared on the last line. -/
def Obligations.FetchPastTheEndIsFatal : Prop :=
  (∀ s : State, programWf s.prog = true → s.running = true → s.prog.length ≤ s.pc.toNat → FatalStep s .pcOutOfRange) ∧
  (∀ strict, FatalStep (construct [] strict) .pcOutOfRange) ∧
  (∀ strict, ∃ t, step (construct [0x0B00000000000001] strict) = .next t ∧ t.running = true ∧ t.pc = 1 ∧
    FatalStep t .pcOutOfRange) ∧
  (∀ strict, ∃ t, step (construct [0x0E00000000000000, 0x0100000000000000] strict) = .next t ∧ t.running = true ∧
    t.pc = 2 ∧ FatalStep t .pcOutOfRange)

/-- R179: a stopped machine stays as it is through any number of steps; no edge but a reset makes it run or changes its FAULT,
and a reset discards all state. That its flag and its `pc` also survive every edge but a reset is the spec's decision D27
(R28: the preload port cannot write them). That a reset keeps the program and STRICT is the model's DESIGN CHOICE (log 2:
they are fields of State, and a host that changes them at a reset is a new `construct`). -/
def Obligations.StoppedMachineStaysStopped : Prop :=
  (∀ (k : Nat) (s : State), programWf s.prog = true → s.running = false → run k s = .next s) ∧
  (∀ (i : Inputs) (s t : State), i.rst = false → s.running = false → edge i s = .next t →
    t.running = false ∧ t.fault = s.fault ∧ t.flag = s.flag ∧ t.pc = s.pc) ∧
  (∀ (i : Inputs) (s : State), i.rst = true → edge i s = .next (construct s.prog s.strict))

/-- A program over 65535 lines is refused (the spec's decision D9; 93_implementation_defined.md S10). -/
def Obligations.TooLongProgramIsRefused : Prop :=
  ∀ s : State, 65535 < s.prog.length → step s = .refused .programTooLong

/-- Every step of a machine whose program fits has a next state (93_implementation_defined.md section 2), and leaves the
program and STRICT as they are (R20, R48, R201). -/
def Obligations.EveryStepAnswersAndKeepsTheProgram : Prop :=
  ∀ s : State, s.prog.length ≤ 65535 → ∃ t, step s = .next t ∧ t.prog = s.prog ∧ t.strict = s.strict

/-- The step raises the first cause that applies, in the order of R178 (the spec's decision D14), each cause judged by itself
from the word's fields and the state (R170); when none applies FAULT stays. -/
def Obligations.FirstApplicableCauseIsRaised : Prop :=
  ∀ s : State, programWf s.prog = true → s.running = true →
    (s.prog.length ≤ s.pc.toNat → FatalStep s .pcOutOfRange) ∧
    (∀ w, s.prog[s.pc.toNat]? = some w →
      (∀ c, Applies s w c → (∀ c', rank c' < rank c → ¬ Applies s w c') → FatalStep s c) ∧
      ((∀ c, ¬ Applies s w c) → ∃ t, step s = .next t ∧ t.fault = s.fault))

/-- The decoder's control signals steering the single-cycle datapath (R85, R206; D26) are the machine: a decoded line either
has a fatal condition and nothing else happens, or all its writes happen together (R103). -/
def Obligations.StepIsTheDatapathOrFatal : Prop :=
  ∀ (s : State) (w : IWord) (i : Instr), s.Fetches w → decode w = .ok i →
    (∀ c, executeFault s i = some c → FatalStep s c) ∧
    (executeFault s i = none → step s = .next (datapath (controls i) s))

/-- R176 (with the spec's decisions D12, D13): a step that leaves a fault cause has written Running and FAULT and nothing
else. -/
def Obligations.FatalStepsArePrecise : Prop :=
  ∀ (s t : State) (c : FatalCause), s.fault = none → step s = .next t → t.fault = some c → FatalResult s t c

/-- R105: after a step that raised nothing, `pc` is the label's entry for a taken branch, unchanged for HALT, and one more
for every other line. That the increment of the 16-bit `pc` does not wrap is no part of R105: it rests on the bound
`N <= 65535` of R12, the spec's decision D9 (log 16, DEDUCED). -/
def Obligations.PcMovesByTheMux : Prop :=
  ∀ (s t : State) (w : IWord) (i : Instr), s.Fetches w → decode w = .ok i → s.fault = none → step s = .next t →
    t.fault = none →
    (∀ (o : BrOp) (l : LabelId), i = o.instr l → takenTable s.flag o = true → labelIndex s.prog l = some t.pc) ∧
    (i = .halt → t.pc = s.pc) ∧
    (i ≠ .halt → (∀ (o : BrOp) (l : LabelId), i = o.instr l → takenTable s.flag o = false) →
      t.pc = s.pc + 1 ∧ t.pc.toNat = s.pc.toNat + 1)

/-- R206: a step writes at most one register or one data word or the flag, and none of them when it stops the machine. -/
def Obligations.StepWritesAtMostOneCell : Prop :=
  ∀ s t : State, Memory.wf s.mem = true → step s = .next t →
    (∀ r q, t.reg r ≠ s.reg r → t.reg q ≠ s.reg q → r = q) ∧
    (∀ a b, t.memWord a ≠ s.memWord a → t.memWord b ≠ s.memWord b → a = b) ∧
    (∀ r, t.reg r ≠ s.reg r → (∀ a, t.memWord a = s.memWord a) ∧ t.flag = s.flag) ∧
    (∀ a, t.memWord a ≠ s.memWord a → t.flag = s.flag) ∧
    (t.running = false → (∀ r, t.reg r = s.reg r) ∧ (∀ a, t.memWord a = s.memWord a) ∧ t.flag = s.flag)

/-! ## State by state (10_state.md) -/

/-- R14, writers: the flag changes in a step only when the step executes a CMP, and a CMP leaves it LESS, GREATER or EQUAL;
so once it is not UNSET no step makes it UNSET. -/
def Obligations.FlagWrittenByCompareOnly : Prop :=
  ∀ s t : State, step s = .next t →
    (t.flag ≠ s.flag → ExecutesCompare s) ∧
    (ExecutesCompare s → t.flag ≠ .unset) ∧
    (s.flag ≠ .unset → t.flag ≠ .unset)

/-- R14, readers: unless the fetched line is BEQ, BNE, BGT or BLT, the step does the same whatever the flag holds (B among
them); the flag itself is either left or written without being read. -/
def Obligations.FlagReadByConditionalBranchesOnly : Prop :=
  ∀ (s t : State) (w : IWord) (f : Flag), s.Fetches w →
    (∀ (o : BrOp) (l : LabelId), decode w = .ok (o.instr l) → o = .b) → step s = .next t →
    ∃ u, step { s with flag := f } = .next u ∧ { u with flag := t.flag } = t ∧
      (u.flag = t.flag ∨ (t.flag = s.flag ∧ u.flag = f))

/-- R30: along any run from a state whose flag is UNSET, the flag is UNSET exactly as long as no CMP has executed. -/
def Obligations.FlagUnsetExactlyBeforeFirstCompare : Prop :=
  ∀ (k : Nat) (s t : State), s.flag = .unset → run k s = .next t →
    (t.flag = .unset ↔ ∀ (j : Nat) (u : State), j < k → run j s = .next u → ¬ ExecutesCompare u)

/-- R19: the 256 data words are 0 after reset, are changed by a step only where it executes a STR to them, and are read by
no line but LDR: the step of any other line does the same to everything else whatever the data memory holds. -/
def Obligations.DataMemoryStoredByStrLoadedByLdr : Prop :=
  (∀ a, State.reset.memWord a = 0) ∧
  (∀ (s t : State) (a : MemIx), Memory.wf s.mem = true → step s = .next t → t.memWord a ≠ s.memWord a →
    ∃ w d, s.Fetches w ∧ decode w = .ok (.str d a) ∧ t.memWord a = s.reg d) ∧
  (∀ (s t : State) (w : IWord) (m : Memory), s.Fetches w → (∀ d a, decode w ≠ .ok (.ldr d a)) → step s = .next t →
    ∃ u, step { s with mem := m } = .next u ∧ { u with mem := t.mem } = t)

/-- R10, R11: a register changes in a step only when the executed line names it as its destination. -/
def Obligations.RegistersWrittenByDestinationOnly : Prop :=
  ∀ (s t : State) (r : Reg), step s = .next t → t.reg r ≠ s.reg r →
    ∃ w i, s.Fetches w ∧ decode w = .ok i ∧ dest i = some r

/-- R11, reads: an instruction that does not name register `r` as a source does the same to everything else whatever `r`
holds; `r` itself is either left or written without being read. -/
def Obligations.RegistersReadAsNamedOnly : Prop :=
  ∀ (i : Instr) (s t : State) (r : Reg) (v : Word), r ∉ sources i → exec i s = .next t →
    ∃ u, exec i (s.setReg r v) = .next u ∧ (∀ q, q ≠ r → u.reg q = t.reg q) ∧
      (u.reg r = t.reg r ∨ (t.reg r = s.reg r ∧ u.reg r = v)) ∧ u.mem = t.mem ∧ u.flag = t.flag ∧ u.pc = t.pc ∧
      u.running = t.running ∧ u.fault = t.fault ∧ u.prog = t.prog ∧ u.strict = t.strict

/-- R16: Running is 1 after reset; a step clears it exactly by HALT or a fatal condition; nothing but reset sets it; no
instruction reads it. -/
def Obligations.RunningClearedByHaltAndFatalOnly : Prop :=
  (∀ (i : Inputs) (s : State), i.rst = true → ∃ t, edge i s = .next t ∧ t.running = true) ∧
  (∀ s t : State, s.running = true → s.fault = none → step s = .next t →
    (t.running = false ↔ (∃ w, s.Fetches w ∧ decode w = .ok .halt) ∨ t.fault ≠ none)) ∧
  (∀ (i : Inputs) (s t : State), i.rst = false → s.running = false → edge i s = .next t → t.running = false) ∧
  (∀ (i : Instr) (s t : State) (b : Bool), exec i s = .next t →
    ∃ u, exec i { s with running := b } = .next u ∧ { u with running := t.running } = t)

/-- Each step keeps the invariant, from every state that has it. Of R30 are `pc <= N` and that FAULT is NONE in a running
machine; that the program fits is the bound of R12 (D9, log 4); that the data memory keeps its canonical form is no rule of
the spec but the form the model chose for it (DESIGN CHOICE, log 1). -/
def Obligations.InvariantKeptByEveryStep : Prop :=
  ∀ s t : State, s.Inv → step s = .next t → t.Inv

/-- Every state a host can bring the machine to, by constructing it with a program that fits and any edges after that
(resets, steps, preloads), satisfies the invariant: `pc <= N` and FAULT NONE in a running machine (R30), a program that
fits (R12, D9, log 4), and the canonical form of the data memory, which is the model's own (DESIGN CHOICE, log 1). -/
def Obligations.ReachableStatesSatisfyInvariant : Prop :=
  ∀ s : State, Reachable s → s.Inv

/-- The reset state and every constructed machine whose program fits satisfy the invariant. The canonical form of the data
memory in it is the model's own (DESIGN CHOICE, log 1), as is that the reset state holds a program, the empty one (log 2). -/
def Obligations.ResetSatisfiesInvariant : Prop :=
  State.reset.Inv ∧ ∀ (prog : List IWord) (strict : Bool), programWf prog = true → (construct prog strict).Inv

/-- R200: an edge with `rst = 1` gives every piece of state its reset value, whatever `step_en` and the preload port say. That
the program and STRICT, which R29 calls inputs, stay as they are at this edge is the model's DESIGN CHOICE (log 2: R201 lets
a host change them at a reset, which in the model is a new `construct`). -/
def Obligations.ResetTakesTheResetValues : Prop :=
  ∀ (i : Inputs) (s : State), i.rst = true → ∃ t, edge i s = .next t ∧
    (∀ r, t.reg r = 0) ∧ (∀ a, t.memWord a = 0) ∧ t.flag = .unset ∧ t.pc = 0 ∧ t.running = true ∧ t.fault = none ∧
    t.prog = s.prog ∧ t.strict = s.strict

/-- R28 (the spec's decisions D26, D27): the preload port writes the one register or data word it names, and never `pc`,
the flag, Running, FAULT or the inputs; together with `step_en` it is ignored; with no input set everything holds. -/
def Obligations.PreloadWritesOneCell : Prop :=
  ∀ (i : Inputs) (s : State), i.rst = false →
    (i.stepEn = true → edge i s = step s) ∧
    (i.stepEn = false → i.dbgWe = false → edge i s = .next s) ∧
    (i.stepEn = false → i.dbgWe = true → i.dbgSel = false → ∃ t, edge i s = .next t ∧
      (∀ r : Reg, t.reg r = if r.val = i.dbgAddr.toNat % 16 then i.dbgWdata else s.reg r) ∧
      (∀ a, t.memWord a = s.memWord a) ∧ t.flag = s.flag ∧ t.pc = s.pc ∧ t.running = s.running ∧ t.fault = s.fault ∧
      t.prog = s.prog ∧ t.strict = s.strict) ∧
    (i.stepEn = false → i.dbgWe = true → i.dbgSel = true → Memory.wf s.mem = true → ∃ t, edge i s = .next t ∧
      (∀ a : MemIx, t.memWord a = if a.val = i.dbgAddr.toNat then i.dbgWdata else s.memWord a) ∧
      (∀ r, t.reg r = s.reg r) ∧ t.flag = s.flag ∧ t.pc = s.pc ∧ t.running = s.running ∧ t.fault = s.fault ∧
      t.prog = s.prog ∧ t.strict = s.strict)

/-- R15, R17, R26, R27 (the spec's decisions D13, D25, D26): what every output of R26 and the inspection port show. `lbl_id` is
the label id field of the word at `pc`. The spec says so of the word being decoded, in a running machine; that it is so on a
stopped machine too, which decodes no word (R100), is the model's DESIGN CHOICE (log 12). Where `pc >= N` the spec names no
value of it, and the model shows none (log 12, DEDUCED). -/
def Obligations.OutputsShowTheState : Prop :=
  ∀ (s : State) (sel : Bool) (addr : BitVec 8),
    (∀ r : Reg, r.val = addr.toNat % 16 → sel = false → (outputs s sel addr).dbgRdata = s.reg r) ∧
    (∀ a : MemIx, a.val = addr.toNat → sel = true → (outputs s sel addr).dbgRdata = s.memWord a) ∧
    (outputs s sel addr).pc = s.pc ∧ (outputs s sel addr).progAddr = s.pc ∧
    (∀ w, s.prog[s.pc.toNat]? = some w → (outputs s sel addr).lblId = some (pField w)) ∧
    (s.prog.length ≤ s.pc.toNat → (outputs s sel addr).lblId = none) ∧
    (outputs s sel addr).running = s.running ∧
    ((outputs s sel addr).flag = 0b00 ↔ s.flag = .unset) ∧ ((outputs s sel addr).flag = 0b01 ↔ s.flag = .equal) ∧
    ((outputs s sel addr).flag = 0b10 ↔ s.flag = .less) ∧ ((outputs s sel addr).flag = 0b11 ↔ s.flag = .greater) ∧
    ((outputs s sel addr).fault = 0 ↔ s.fault = none) ∧
    ((outputs s sel addr).fault = 1 ↔ s.fault = some .pcOutOfRange) ∧
    ((outputs s sel addr).fault = 2 ↔ s.fault = some .unknownMnemonic) ∧
    ((outputs s sel addr).fault = 3 ↔ s.fault = some .malformedOperand) ∧
    ((outputs s sel addr).fault = 4 ↔ s.fault = some .indexOutOfRange) ∧
    ((outputs s sel addr).fault = 5 ↔ s.fault = some .unknownLabel) ∧
    ((outputs s sel addr).fault = 6 ↔ s.fault = some .shiftAmountOutOfRange)

/-- R46: after any edges, a data word is what the latest write to it left: a STR, a preload or a reset, or its first value
if there was none. -/
def Obligations.DataWordIsItsLatestWrite : Prop :=
  ∀ (is : List Inputs) (s t : State) (a : MemIx), Memory.wf s.mem = true → edges is s = .next t →
    t.memWord a = wordAfterAll is s a (s.memWord a)

/-- The model's own choice of form (log 1): two data memories in canonical form with equal words are equal data. -/
def Obligations.EqualWordsAreEqualMemories : Prop :=
  ∀ m m' : Memory, Memory.wf m = true → Memory.wf m' = true →
    (∀ a : MemIx, Memory.read m a.val = Memory.read m' a.val) → m = m'

/-! ## Instructions: results and frames -/

/-- R110: LDR completes in every state: `x[d]` is the data word `a`, nothing else changes but `pc`. -/
def Obligations.LdrLoadsTheWord : Prop :=
  ∀ (d : Reg) (a : MemIx) (s : State), ∃ t, exec (.ldr d a) s = .next t ∧ RegResult s t d (s.memWord a)

/-- R111: STR completes in every state: data word `a` is `x[d]`, nothing else changes but `pc`. The premise is the
canonical form of the data memory, which every step keeps. -/
def Obligations.StrStoresTheRegister : Prop :=
  ∀ (d : Reg) (a : MemIx) (s : State), Memory.wf s.mem = true →
    ∃ t, exec (.str d a) s = .next t ∧ MemResult s t a (s.reg d)

/-- R116 (wrapping is the spec's decision D16): ADD completes in every state; the result's unsigned reading is the sum of the
signed operands modulo `2^32`. -/
def Obligations.AddWrapsTheSum : Prop :=
  ∀ (d n : Reg) (o : Op2) (s : State), ∃ t v, exec (.add d n o) s = .next t ∧ RegResult s t d v ∧
    (v.toNat : Int) = ((s.reg n).toInt + (s.val o).toInt) % 4294967296

/-- R117 (D16): SUB, `Rn` minus operand 2. -/
def Obligations.SubWrapsTheDifference : Prop :=
  ∀ (d n : Reg) (o : Op2) (s : State), ∃ t v, exec (.sub d n o) s = .next t ∧ RegResult s t d v ∧
    (v.toNat : Int) = ((s.reg n).toInt - (s.val o).toInt) % 4294967296

/-- R121 to R123 (two's complement is the spec's decision D35): AND, ORR and EOR complete in every state, bit by bit. -/
def Obligations.BitwiseActBitByBit : Prop :=
  ∀ (d n : Reg) (o : Op2) (s : State),
    (∃ t v, exec (.and d n o) s = .next t ∧ RegResult s t d v ∧
      ∀ i < 32, v.getLsbD i = ((s.reg n).getLsbD i && (s.val o).getLsbD i)) ∧
    (∃ t v, exec (.orr d n o) s = .next t ∧ RegResult s t d v ∧
      ∀ i < 32, v.getLsbD i = ((s.reg n).getLsbD i || (s.val o).getLsbD i)) ∧
    (∃ t v, exec (.eor d n o) s = .next t ∧ RegResult s t d v ∧
      ∀ i < 32, v.getLsbD i = ((s.reg n).getLsbD i ^^ (s.val o).getLsbD i))

/-- R126 (D17): LSL by an amount in 0..31 completes: the bits move up, zeros enter at the bottom, bits past 31 are lost. -/
def Obligations.LslMovesBitsUp : Prop :=
  ∀ (d n : Reg) (o : Op2) (s : State), 0 ≤ (s.val o).toInt → (s.val o).toInt ≤ 31 →
    ∃ t v, exec (.lsl d n o) s = .next t ∧ RegResult s t d v ∧
      ∀ i < 32, v.getLsbD i = if (i : Int) < (s.val o).toInt then false else (s.reg n).getLsbD (i - (s.val o).toInt.toNat)

/-- R128 (D17, D18): LSR by an amount in 0..31 completes: the bits move down; zeros enter at the top when LSR_MODE is
logical, copies of bit 31 when it is arithmetic. It holds whatever LSR_MODE is. -/
def Obligations.LsrMovesBitsDown : Prop :=
  ∀ (d n : Reg) (o : Op2) (s : State), 0 ≤ (s.val o).toInt → (s.val o).toInt ≤ 31 →
    ∃ t v, exec (.lsr d n o) s = .next t ∧ RegResult s t d v ∧
      (Config.lsrMode = .logical → ∀ i < 32, v.getLsbD i =
        if (i : Int) + (s.val o).toInt < 32 then (s.reg n).getLsbD (i + (s.val o).toInt.toNat) else false) ∧
      (Config.lsrMode = .arithmetic → ∀ i < 32, v.getLsbD i =
        if (i : Int) + (s.val o).toInt < 32 then (s.reg n).getLsbD (i + (s.val o).toInt.toNat) else (s.reg n).getLsbD 31)

/-- R127 (the spec's decision D17): LSL and LSR by an amount below 0 or above 31 are the fatal outcome
ShiftAmountOutOfRange, and nothing is written. -/
def Obligations.ShiftAmountOutOfRangeIsFatal : Prop :=
  ∀ (d n : Reg) (o : Op2) (s : State), (s.val o).toInt < 0 ∨ 31 < (s.val o).toInt →
    (∃ t, exec (.lsl d n o) s = .next t ∧ FatalResult s t .shiftAmountOutOfRange) ∧
    (∃ t, exec (.lsr d n o) s = .next t ∧ FatalResult s t .shiftAmountOutOfRange)

/-- R130, R131 (D35): MOV and MVN complete in every state; MVN complements every bit, which is `-v - 1`. -/
def Obligations.MovCopiesMvnComplements : Prop :=
  ∀ (d : Reg) (o : Op2) (s : State),
    (∃ t, exec (.mov d o) s = .next t ∧ RegResult s t d (s.val o)) ∧
    (∃ t v, exec (.mvn d o) s = .next t ∧ RegResult s t d v ∧
      (∀ i < 32, v.getLsbD i = !(s.val o).getLsbD i) ∧ v.toInt = -(s.val o).toInt - 1)

/-- R135: CMP completes in every state and latches the exact signed comparison; it writes no register and no data word. -/
def Obligations.CmpLatchesTheComparison : Prop :=
  ∀ (n : Reg) (o : Op2) (s : State), ∃ t f, exec (.cmp n o) s = .next t ∧ FlagResult s t f ∧
    ((s.reg n).toInt < (s.val o).toInt → f = .less) ∧
    ((s.reg n).toInt > (s.val o).toInt → f = .greater) ∧
    ((s.reg n).toInt = (s.val o).toInt → f = .equal)

/-- R146: B, BEQ, BNE, BGT and BLT to a label with an entry complete in every state: `pc` is the entry where the table says
taken and one more where it does not, nothing else changes. -/
def Obligations.BranchDecisionTable : Prop :=
  ∀ (o : BrOp) (l : LabelId) (s : State) (target : LineIndex), labelIndex s.prog l = some target →
    ∃ t, exec (o.instr l) s = .next t ∧ PcResult s t (if takenTable s.flag o then target else s.pc + 1)

/-- R174: a branch to a label with no entry is the fatal outcome UnknownLabel, whatever the flag (also where it would not
be taken, R145, the spec's decision D15). -/
def Obligations.UnknownLabelIsFatal : Prop :=
  ∀ (o : BrOp) (l : LabelId) (s : State), labelIndex s.prog l = none →
    ∃ t, exec (o.instr l) s = .next t ∧ FatalResult s t .unknownLabel

/-- R150: HALT completes in every state: Running is 0, FAULT and everything else stays, `pc` included. -/
def Obligations.HaltStopsTheMachine : Prop :=
  ∀ s : State, ∃ t, exec .halt s = .next t ∧ StopResult s t s.fault

/-- R151, R152: LABEL and BLANK complete in every state, STRICT or not: only `pc` moves. -/
def Obligations.LabelAndBlankOnlyAdvance : Prop :=
  ∀ (l : LabelId) (s : State),
    (∃ t, exec (.label l) s = .next t ∧ PcResult s t (s.pc + 1)) ∧
    (∃ t, exec .blank s = .next t ∧ PcResult s t (s.pc + 1))

/-- R175: UNK is a no-op that advances `pc` when STRICT is 0 and the fatal outcome UnknownMnemonic when it is 1; with STRICT
0 no step raises that cause. -/
def Obligations.UnknownMnemonicByStrict : Prop :=
  (∀ (op : BitVec 8) (s : State),
    (s.strict = false → ∃ t, exec (.unk op) s = .next t ∧ PcResult s t (s.pc + 1)) ∧
    (s.strict = true → ∃ t, exec (.unk op) s = .next t ∧ FatalResult s t .unknownMnemonic)) ∧
  (∀ s t : State, s.strict = false → step s = .next t → t.fault = some .unknownMnemonic →
    s.fault = some .unknownMnemonic)

/-- R154: a BAD line is the fatal outcome MalformedOperand in every state; that entry is its own effect. -/
def Obligations.BadIsMalformed : Prop :=
  ∀ s : State, ∃ t, exec .bad s = .next t ∧ FatalResult s t .malformedOperand

/-- R104: `val` of an immediate and of a register, and each of the ten instructions with an operand 2 does the same with an
immediate as with a register that holds the same value. -/
def Obligations.OperandFormsAgree : Prop :=
  ∀ (s : State) (v : Word) (m d n : Reg), s.val (.imm v) = v ∧ s.val (.reg m) = s.reg m ∧
    (s.reg m = v →
      exec (.add d n (.imm v)) s = exec (.add d n (.reg m)) s ∧
      exec (.sub d n (.imm v)) s = exec (.sub d n (.reg m)) s ∧
      exec (.and d n (.imm v)) s = exec (.and d n (.reg m)) s ∧
      exec (.orr d n (.imm v)) s = exec (.orr d n (.reg m)) s ∧
      exec (.eor d n (.imm v)) s = exec (.eor d n (.reg m)) s ∧
      exec (.lsl d n (.imm v)) s = exec (.lsl d n (.reg m)) s ∧
      exec (.lsr d n (.imm v)) s = exec (.lsr d n (.reg m)) s ∧
      exec (.mov d (.imm v)) s = exec (.mov d (.reg m)) s ∧
      exec (.mvn d (.imm v)) s = exec (.mvn d (.reg m)) s ∧
      exec (.cmp n (.imm v)) s = exec (.cmp n (.reg m)) s)

/-- R115 (D16): SUB of a value and then ADD of the same value restores the register, for all inputs; the value is an
immediate or a register other than the destination. -/
def Obligations.AddUndoesSub : Prop :=
  ∀ (d n : Reg) (o : Op2) (s : State), o ≠ .reg d →
    ∃ t u, exec (.sub d n o) s = .next t ∧ exec (.add d d o) t = .next u ∧ u.reg d = s.reg n

/-- R128 (D18): for amounts 0..31 the two fills agree exactly when `x[n]` is not negative or the amount is 0. -/
def Obligations.LsrModesAgreeExactlyOnNonNegative : Prop :=
  ∀ (a : Word) (n : Nat), n ≤ 31 →
    (aluLsr .logical a n = aluLsr .arithmetic a n ↔ 0 ≤ a.toInt ∨ n = 0)

/-- R123, R131: EOR with `#-1` is MVN, and the same EOR twice restores the register's value. -/
def Obligations.EorWithOnesIsMvn : Prop :=
  ∀ (d n : Reg) (o : Op2) (s : State),
    exec (.eor d n (.imm (-1))) s = exec (.mvn d (.reg n)) s ∧
    (o ≠ .reg d → ∃ t u, exec (.eor d n o) s = .next t ∧ exec (.eor d d o) t = .next u ∧ u.reg d = s.reg n)

/-! ## Labels, text and assembler (30_encoding.md Parts 1 and 3) -/

/-- R92 (last wins is the spec's decision D8): the label index maps a label to the line after its last declaration, and has
no entry exactly for labels that no line declares. -/
def Obligations.LabelIndexIsTheLastDeclaration : Prop :=
  ∀ (prog : List IWord) (l : LabelId), programWf prog = true →
    (∀ t, labelIndex prog l = some t ↔ ∃ i w, prog[i]? = some w ∧ decode w = .ok (.label l) ∧ t.toNat = i + 1 ∧
      ∀ j w', i < j → prog[j]? = some w' → decode w' ≠ .ok (.label l)) ∧
    (labelIndex prog l = none ↔ ∀ w ∈ prog, decode w ≠ .ok (.label l))

/-- R93: the assembled program has one word per line, and each word decodes to what its line decodes to as text, with every
label name replaced by its id; for any assignment of ids, the canonical one of R91 among them. -/
def Obligations.AssembledLinesDecodeLikeText : Prop :=
  ∀ (ids : Chars → LabelId) (lines : List Chars),
    (asmWith ids lines).length = lines.length ∧
    ∀ (i : Nat) (line : Chars), lines[i]? = some line →
      ∃ w, (asmWith ids lines)[i]? = some w ∧ decode w = textDecode ids line

/-- R91, R93: for a program that fits, distinct names that occur in it have distinct ids, and the label index of the
assembled program maps a name's id to the line the text-level index maps the name to. -/
def Obligations.AssembledLabelIndexAgrees : Prop :=
  ∀ lines : List Chars, lines.length ≤ 65535 →
    (∀ a ∈ scanNames [] lines, ∀ b ∈ scanNames [] lines, labelIds lines a = labelIds lines b → a = b) ∧
    (∀ name ∈ scanNames [] lines, labelIndex (asm lines) (labelIds lines name) = textLabelIndex lines name)

/-- R6, R93: a run of the binary program and a run of the text program from equal states agree step by step: the step of a
state that holds the assembled program is the step of the text machine. -/
def Obligations.TextMachineAgreesWithBinary : Prop :=
  ∀ (lines : List Chars) (s : State), s.prog = asm lines → step s = textStep lines s

/-- R94: the canonical spelling of a line decodes, as text, to that line: upper-case mnemonic, operands separated by a comma
and a space, for every operand value; names are non-empty, without whitespace and colons (R63). R94 gives UNK and malformed
lines no canonical spelling: that they are spelt `NOP` and `HALT now` is the model's DESIGN CHOICE (log 14), and UNK is
there the reserved opcode 0x14 that `Asm` emits (R81, log 7). -/
def Obligations.CanonicalSpellingDecodes : Prop :=
  ∀ (ids : Chars → LabelId) (names : LabelId → Chars) (i : Instr),
    (∀ l, ids (names l) = l) → (∀ l, names l ≠ []) → (∀ l, ∀ c ∈ names l, isSpace c = false ∧ c ≠ ':') →
    (∀ op, i = .unk op → op = 0x14) →
    textDecode ids (spell names i) = .ok i

/-- 95_test_vectors.md section 2.9 and the corner cases of R63 to R70: how given lines of text are classified. -/
def Obligations.TextExamplesClassify : Prop :=
  classify "x:".toList = .label ['x'] ∧
  classify "  x:  ".toList = .label ['x'] ∧
  classify "HALT:".toList = .label ['H', 'A', 'L', 'T'] ∧
  classify ":".toList = .unk ∧
  classify "a:b:".toList = .unk ∧
  classify "x :".toList = .unk ∧
  classify "foo: HALT".toList = .unk ∧
  classify " \t".toList = .blank ∧
  classify "NOP R99, #x".toList = .unk ∧
  classify "HALT now".toList = .malformed ∧
  classify "ADD R0,R1,#2".toList = .malformed ∧
  classify "ADD R0 R1, #2".toList = .malformed ∧
  classify "ADD R0, R1, #2147483648".toList = .malformed ∧
  classify "ADD R16, R0, #x".toList = .malformed ∧
  classify "LDR R0, #4".toList = .malformed ∧
  classify "MOV R0, #+5".toList = .malformed ∧
  classify "MOV R07, #-0".toList = .insn (.alu2 .mov 7 (.imm 0)) ∧
  classify "LDR R16, 256".toList = .insn (.mem .ldr 16 256) ∧
  classify "B loop:".toList = .insn (.br .b ['l', 'o', 'o', 'p', ':'])
end

