-- ==== Sys2Proof/Laws/Alu.lean ====
section
/-!
SUPPORT. The ALU functions, written over integers as the spec writes them, are the operations on bit patterns.
-/
namespace Sys2Proof.Machine

theorem wrap32_toInt (a : Word) : wrap32 a.toInt = a := BitVec.ofInt_toInt

theorem wrap32_natCast (n : Nat) : wrap32 (n : Int) = BitVec.ofNat 32 n := BitVec.ofInt_natCast 32 n

/-- `unsigned(wrap32(z)) = z mod 2^32` (R7). -/
theorem wrap32_toNat (z : Int) : ((wrap32 z).toNat : Int) = z % 4294967296 := by
  simp [wrap32, BitVec.toNat_ofInt]; omega

theorem aluAdd_eq (a b : Word) : aluAdd a b = a + b := by
  simp [aluAdd, wrap32, BitVec.ofInt_add, BitVec.ofInt_toInt]

theorem aluSub_eq (a b : Word) : aluSub a b = a - b := by
  simp [aluSub, wrap32, Int.sub_eq_add_neg, BitVec.ofInt_add, BitVec.ofInt_toInt, BitVec.ofInt_neg, BitVec.sub_eq_add_neg]

theorem aluLsl_eq (a : Word) (n : Nat) : aluLsl a n = a <<< n := by
  have e : ((a.toNat : Int) * 2 ^ n) = ((a.toNat * 2 ^ n : Nat) : Int) := by push_cast; rfl
  rw [aluLsl, e, wrap32_natCast]
  apply BitVec.eq_of_toNat_eq
  simp [BitVec.toNat_shiftLeft, Nat.shiftLeft_eq]

theorem aluLsr_logical (a : Word) (n : Nat) : aluLsr .logical a n = a >>> n := by
  have e : ((a.toNat : Int) / 2 ^ n) = ((a.toNat / 2 ^ n : Nat) : Int) := by push_cast; rfl
  rw [aluLsr, e, wrap32_natCast]
  apply BitVec.eq_of_toNat_eq
  have := a.isLt
  have h := Nat.div_le_self a.toNat (2 ^ n)
  simp [BitVec.toNat_ushiftRight, Nat.shiftRight_eq_div_pow]
  omega

theorem aluLsr_arithmetic (a : Word) (n : Nat) : aluLsr .arithmetic a n = a.sshiftRight n := by
  rw [aluLsr, BitVec.sshiftRight, Int.shiftRight_eq_div_pow]; rfl

/-- The comparison is exact and signed (R135). -/
theorem compareFlag_eq (a b : Word) :
    compareFlag a b = if a.slt b then .less else if a = b then .equal else .greater := by
  unfold compareFlag
  simp only [BitVec.slt, decide_eq_true_eq]
  split
  · rfl
  · split
    · rw [if_neg]; intro h; subst h; omega
    · rw [if_pos]; apply BitVec.eq_of_toInt_eq; omega

theorem compareFlag_ne_unset (a b : Word) : compareFlag a b ≠ .unset := by
  unfold compareFlag; split <;> [skip; split] <;> simp

/-- A legal shift amount, read as an unsigned number (R127). -/
theorem shiftInRange_iff (b : Word) : shiftInRange b = true ↔ b.toNat ≤ 31 := by
  have h := BitVec.toInt_eq_toNat_cond b
  simp only [shiftInRange, Bool.and_eq_true, decide_eq_true_eq]
  have := b.isLt
  split at h <;> omega

end Sys2Proof.Machine
end

