-- ==== Sys2Proof/Laws/Decode.lean ====
section
/-!
SUPPORT. The fields of a word, the range checks, and the word of each format decoded again.
-/
namespace Sys2Proof

theorem programWf_iff (prog : List IWord) : programWf prog = true ↔ prog.length ≤ 65535 :=
  decide_eq_true_iff

/-! ## Fields of a word built from fields (R75) -/

theorem toNat_append_add {n m : Nat} (x : BitVec n) (y : BitVec m) :
    (x ++ y).toNat = x.toNat * 2 ^ m + y.toNat := by
  rw [BitVec.toNat_append, Nat.shiftLeft_eq, Nat.mul_comm, Nat.two_pow_add_eq_or_of_lt y.isLt]

theorem mkWord_toNat (op rd rn k : BitVec 8) (p : BitVec 32) :
    (mkWord op rd rn k p).toNat =
      (((op.toNat * 256 + rd.toNat) * 256 + rn.toNat) * 256 + k.toNat) * 4294967296 + p.toNat := by
  have e : (mkWord op rd rn k p).toNat = (op ++ rd ++ rn ++ k ++ p).toNat := rfl
  rw [e]; simp only [toNat_append_add]; omega

@[simp] theorem opField_mkWord (op rd rn k : BitVec 8) (p : BitVec 32) : opField (mkWord op rd rn k p) = op := by
  apply BitVec.eq_of_toNat_eq
  simp only [opField, BitVec.extractLsb'_toNat, mkWord_toNat, Nat.shiftRight_eq_div_pow]; omega

@[simp] theorem rdField_mkWord (op rd rn k : BitVec 8) (p : BitVec 32) : rdField (mkWord op rd rn k p) = rd := by
  apply BitVec.eq_of_toNat_eq
  simp only [rdField, BitVec.extractLsb'_toNat, mkWord_toNat, Nat.shiftRight_eq_div_pow]; omega

@[simp] theorem rnField_mkWord (op rd rn k : BitVec 8) (p : BitVec 32) : rnField (mkWord op rd rn k p) = rn := by
  apply BitVec.eq_of_toNat_eq
  simp only [rnField, BitVec.extractLsb'_toNat, mkWord_toNat, Nat.shiftRight_eq_div_pow]; omega

@[simp] theorem kField_mkWord (op rd rn k : BitVec 8) (p : BitVec 32) : kField (mkWord op rd rn k p) = k := by
  apply BitVec.eq_of_toNat_eq
  simp only [kField, BitVec.extractLsb'_toNat, mkWord_toNat, Nat.shiftRight_eq_div_pow]; omega

@[simp] theorem pField_mkWord (op rd rn k : BitVec 8) (p : BitVec 32) : pField (mkWord op rd rn k p) = p := by
  apply BitVec.eq_of_toNat_eq
  simp only [pField, BitVec.extractLsb'_toNat, mkWord_toNat, Nat.shiftRight_eq_div_pow]; omega

/-- A word is its five fields (R75). -/
theorem mkWord_fields (w : IWord) : mkWord (opField w) (rdField w) (rnField w) (kField w) (pField w) = w := by
  apply BitVec.eq_of_toNat_eq
  have h := w.isLt
  simp only [mkWord_toNat, opField, rdField, rnField, kField, pField, BitVec.extractLsb'_toNat,
    Nat.shiftRight_eq_div_pow]
  omega

@[simp] theorem decode_mkWord (op rd rn k : BitVec 8) (p : BitVec 32) :
    decode (mkWord op rd rn k p) = decodeFields op rd rn k p := by
  simp [decode]

/-! ## Range checks (R78, R80) -/

@[simp] theorem regOf_val (r : Reg) : regOf r.val = some r := by simp [regOf]

@[simp] theorem memIxOf_val (a : MemIx) : memIxOf a.val = some a := by simp [memIxOf]

theorem regOf_eq_some {i : Nat} {r : Reg} : regOf i = some r ↔ i = r.val := by
  unfold regOf
  split
  · simp [Fin.ext_iff]
  · simp; omega

theorem regOf_eq_none {i : Nat} : regOf i = none ↔ 16 ≤ i := by simp [regOf]

theorem memIxOf_eq_some {i : Nat} {a : MemIx} : memIxOf i = some a ↔ i = a.val := by
  unfold memIxOf
  split
  · simp [Fin.ext_iff]
  · simp; omega

theorem memIxOf_eq_none {i : Nat} : memIxOf i = none ↔ 256 ≤ i := by simp [memIxOf]

@[simp] theorem regField_toNat (r : Reg) : (regField r).toNat = r.val := by
  simp [regField]; omega

@[simp] theorem regPayload_toNat (r : Reg) : (BitVec.ofNat 32 r.val).toNat = r.val := by
  simp; omega

@[simp] theorem memPayload_toNat (a : MemIx) : (BitVec.ofNat 32 a.val).toNat = a.val := by
  simp; omega

@[simp] theorem op2Of_k_p (o : Op2) : op2Of o.k o.p = some o := by
  cases o with
  | imm v => simp [op2Of, Op2.k, Op2.p]
  | reg m => simp only [op2Of, Op2.k, Op2.p, regPayload_toNat, regOf_val]; rfl

theorem Op2.k_lt (o : Op2) : ¬ 2 ≤ o.k.toNat := by cases o <;> simp [Op2.k]

/-! ## Each format's word decoded again -/

theorem lineKind_opcode (m : Mnemonic) : lineKind m.opcode = .insn m := by
  cases m with
  | mem o => cases o <;> rfl
  | alu3 o => cases o <;> rfl
  | alu2 o => cases o <;> rfl
  | cmp => rfl
  | br o => cases o <;> rfl
  | halt => rfl

theorem decode_encMem (o : MemOp) (d : Reg) (a : MemIx) : decode (encMem o d a) = .ok (o.instr d a) := by
  simp only [encMem, decode_mkWord, decodeFields, lineKind_opcode, decodeMem, regField_toNat, memPayload_toNat,
    regOf_val, memIxOf_val]
  rfl

theorem decode_encAlu3 (o : Alu3Op) (d n : Reg) (v : Op2) : decode (encAlu3 o d n v) = .ok (o.instr d n v) := by
  simp only [encAlu3, decode_mkWord, decodeFields, lineKind_opcode, decodeAlu3, regField_toNat, regOf_val, op2Of_k_p,
    if_neg (Op2.k_lt v)]

theorem decode_encAlu2 (o : Alu2Op) (d : Reg) (v : Op2) : decode (encAlu2 o d v) = .ok (o.instr d v) := by
  simp [encAlu2, decodeFields, lineKind_opcode, decodeAlu2, Op2.k_lt v, -not_le]

theorem decode_encCmp (n : Reg) (v : Op2) : decode (encCmp n v) = .ok (.cmp n v) := by
  simp [encCmp, decodeFields, lineKind_opcode, decodeCmp, Op2.k_lt v, -not_le]

theorem decode_encBr (o : BrOp) (l : LabelId) : decode (encBr o l) = .ok (o.instr l) := by
  simp [encBr, decodeFields, lineKind_opcode, decodeBr]

/-- A reserved opcode selects UNK (R77, R81). -/
theorem lineKind_reserved {op : BitVec 8} (h : reservedOpcode op = true) : lineKind op = .unk := by
  revert op; decide

end Sys2Proof
end

