-- ==== Sys2Proof/Laws/State.lean ====
section
/-!
SUPPORT. One lemma per field per update of the state, true by rfl, so that no proof unfolds a record update; and the
same for the accessors `reg`, `memWord` and `val`.
-/
namespace Sys2Proof.Machine

@[simp] theorem State.setReg_regs (s : State) (r : Reg) (v : Word) : (s.setReg r v).regs = s.regs.set r.val v r.isLt := rfl
@[simp] theorem State.setReg_mem (s : State) (r : Reg) (v : Word) : (s.setReg r v).mem = s.mem := rfl
@[simp] theorem State.setReg_flag (s : State) (r : Reg) (v : Word) : (s.setReg r v).flag = s.flag := rfl
@[simp] theorem State.setReg_pc (s : State) (r : Reg) (v : Word) : (s.setReg r v).pc = s.pc := rfl
@[simp] theorem State.setReg_running (s : State) (r : Reg) (v : Word) : (s.setReg r v).running = s.running := rfl
@[simp] theorem State.setReg_fault (s : State) (r : Reg) (v : Word) : (s.setReg r v).fault = s.fault := rfl
@[simp] theorem State.setReg_prog (s : State) (r : Reg) (v : Word) : (s.setReg r v).prog = s.prog := rfl
@[simp] theorem State.setReg_strict (s : State) (r : Reg) (v : Word) : (s.setReg r v).strict = s.strict := rfl
@[simp] theorem State.setReg_memWord (s : State) (r : Reg) (v : Word) (b : MemIx) : (s.setReg r v).memWord b = s.memWord b := rfl

@[simp] theorem State.setMem_regs (s : State) (a : MemIx) (v : Word) : (s.setMem a v).regs = s.regs := rfl
@[simp] theorem State.setMem_mem (s : State) (a : MemIx) (v : Word) : (s.setMem a v).mem = Memory.write s.mem a.val v := rfl
@[simp] theorem State.setMem_flag (s : State) (a : MemIx) (v : Word) : (s.setMem a v).flag = s.flag := rfl
@[simp] theorem State.setMem_pc (s : State) (a : MemIx) (v : Word) : (s.setMem a v).pc = s.pc := rfl
@[simp] theorem State.setMem_running (s : State) (a : MemIx) (v : Word) : (s.setMem a v).running = s.running := rfl
@[simp] theorem State.setMem_fault (s : State) (a : MemIx) (v : Word) : (s.setMem a v).fault = s.fault := rfl
@[simp] theorem State.setMem_prog (s : State) (a : MemIx) (v : Word) : (s.setMem a v).prog = s.prog := rfl
@[simp] theorem State.setMem_strict (s : State) (a : MemIx) (v : Word) : (s.setMem a v).strict = s.strict := rfl
@[simp] theorem State.setMem_reg (s : State) (a : MemIx) (v : Word) (q : Reg) : (s.setMem a v).reg q = s.reg q := rfl
@[simp] theorem State.setMem_val (s : State) (a : MemIx) (v : Word) (o : Op2) : (s.setMem a v).val o = s.val o := by cases o <;> rfl

@[simp] theorem State.advance_regs (s : State) : (s.advance).regs = s.regs := rfl
@[simp] theorem State.advance_mem (s : State) : (s.advance).mem = s.mem := rfl
@[simp] theorem State.advance_flag (s : State) : (s.advance).flag = s.flag := rfl
@[simp] theorem State.advance_pc (s : State) : (s.advance).pc = s.pc + 1 := rfl
@[simp] theorem State.advance_running (s : State) : (s.advance).running = s.running := rfl
@[simp] theorem State.advance_fault (s : State) : (s.advance).fault = s.fault := rfl
@[simp] theorem State.advance_prog (s : State) : (s.advance).prog = s.prog := rfl
@[simp] theorem State.advance_strict (s : State) : (s.advance).strict = s.strict := rfl
@[simp] theorem State.advance_reg (s : State) (q : Reg) : (s.advance).reg q = s.reg q := rfl
@[simp] theorem State.advance_val (s : State) (o : Op2) : (s.advance).val o = s.val o := by cases o <;> rfl
@[simp] theorem State.advance_memWord (s : State) (b : MemIx) : (s.advance).memWord b = s.memWord b := rfl

@[simp] theorem State.jump_regs (s : State) (t : LineIndex) : (s.jump t).regs = s.regs := rfl
@[simp] theorem State.jump_mem (s : State) (t : LineIndex) : (s.jump t).mem = s.mem := rfl
@[simp] theorem State.jump_flag (s : State) (t : LineIndex) : (s.jump t).flag = s.flag := rfl
@[simp] theorem State.jump_pc (s : State) (t : LineIndex) : (s.jump t).pc = t := rfl
@[simp] theorem State.jump_running (s : State) (t : LineIndex) : (s.jump t).running = s.running := rfl
@[simp] theorem State.jump_fault (s : State) (t : LineIndex) : (s.jump t).fault = s.fault := rfl
@[simp] theorem State.jump_prog (s : State) (t : LineIndex) : (s.jump t).prog = s.prog := rfl
@[simp] theorem State.jump_strict (s : State) (t : LineIndex) : (s.jump t).strict = s.strict := rfl
@[simp] theorem State.jump_reg (s : State) (t : LineIndex) (q : Reg) : (s.jump t).reg q = s.reg q := rfl
@[simp] theorem State.jump_val (s : State) (t : LineIndex) (o : Op2) : (s.jump t).val o = s.val o := by cases o <;> rfl
@[simp] theorem State.jump_memWord (s : State) (t : LineIndex) (b : MemIx) : (s.jump t).memWord b = s.memWord b := rfl

@[simp] theorem State.setFlag_regs (s : State) (f : Flag) : (s.setFlag f).regs = s.regs := rfl
@[simp] theorem State.setFlag_mem (s : State) (f : Flag) : (s.setFlag f).mem = s.mem := rfl
@[simp] theorem State.setFlag_flag (s : State) (f : Flag) : (s.setFlag f).flag = f := rfl
@[simp] theorem State.setFlag_pc (s : State) (f : Flag) : (s.setFlag f).pc = s.pc := rfl
@[simp] theorem State.setFlag_running (s : State) (f : Flag) : (s.setFlag f).running = s.running := rfl
@[simp] theorem State.setFlag_fault (s : State) (f : Flag) : (s.setFlag f).fault = s.fault := rfl
@[simp] theorem State.setFlag_prog (s : State) (f : Flag) : (s.setFlag f).prog = s.prog := rfl
@[simp] theorem State.setFlag_strict (s : State) (f : Flag) : (s.setFlag f).strict = s.strict := rfl
@[simp] theorem State.setFlag_reg (s : State) (f : Flag) (q : Reg) : (s.setFlag f).reg q = s.reg q := rfl
@[simp] theorem State.setFlag_val (s : State) (f : Flag) (o : Op2) : (s.setFlag f).val o = s.val o := by cases o <;> rfl
@[simp] theorem State.setFlag_memWord (s : State) (f : Flag) (b : MemIx) : (s.setFlag f).memWord b = s.memWord b := rfl

@[simp] theorem State.stop_regs (s : State) : (s.stop).regs = s.regs := rfl
@[simp] theorem State.stop_mem (s : State) : (s.stop).mem = s.mem := rfl
@[simp] theorem State.stop_flag (s : State) : (s.stop).flag = s.flag := rfl
@[simp] theorem State.stop_pc (s : State) : (s.stop).pc = s.pc := rfl
@[simp] theorem State.stop_running (s : State) : (s.stop).running = false := rfl
@[simp] theorem State.stop_fault (s : State) : (s.stop).fault = s.fault := rfl
@[simp] theorem State.stop_prog (s : State) : (s.stop).prog = s.prog := rfl
@[simp] theorem State.stop_strict (s : State) : (s.stop).strict = s.strict := rfl
@[simp] theorem State.stop_reg (s : State) (q : Reg) : (s.stop).reg q = s.reg q := rfl
@[simp] theorem State.stop_val (s : State) (o : Op2) : (s.stop).val o = s.val o := by cases o <;> rfl
@[simp] theorem State.stop_memWord (s : State) (b : MemIx) : (s.stop).memWord b = s.memWord b := rfl

@[simp] theorem State.raise_regs (s : State) (c : FatalCause) : (s.raise c).regs = s.regs := rfl
@[simp] theorem State.raise_mem (s : State) (c : FatalCause) : (s.raise c).mem = s.mem := rfl
@[simp] theorem State.raise_flag (s : State) (c : FatalCause) : (s.raise c).flag = s.flag := rfl
@[simp] theorem State.raise_pc (s : State) (c : FatalCause) : (s.raise c).pc = s.pc := rfl
@[simp] theorem State.raise_running (s : State) (c : FatalCause) : (s.raise c).running = false := rfl
@[simp] theorem State.raise_fault (s : State) (c : FatalCause) : (s.raise c).fault = some c := rfl
@[simp] theorem State.raise_prog (s : State) (c : FatalCause) : (s.raise c).prog = s.prog := rfl
@[simp] theorem State.raise_strict (s : State) (c : FatalCause) : (s.raise c).strict = s.strict := rfl
@[simp] theorem State.raise_reg (s : State) (c : FatalCause) (q : Reg) : (s.raise c).reg q = s.reg q := rfl
@[simp] theorem State.raise_val (s : State) (c : FatalCause) (o : Op2) : (s.raise c).val o = s.val o := by cases o <;> rfl
@[simp] theorem State.raise_memWord (s : State) (c : FatalCause) (b : MemIx) : (s.raise c).memWord b = s.memWord b := rfl

@[simp] theorem State.val_imm (s : State) (v : Word) : s.val (.imm v) = v := rfl
@[simp] theorem State.val_reg (s : State) (m : Reg) : s.val (.reg m) = s.reg m := rfl

/-! The reset state (R29). -/

@[simp] theorem State.reset_mem : State.reset.mem = [] := rfl
@[simp] theorem State.reset_flag : State.reset.flag = .unset := rfl
@[simp] theorem State.reset_pc : State.reset.pc = 0 := rfl
@[simp] theorem State.reset_running : State.reset.running = true := rfl
@[simp] theorem State.reset_fault : State.reset.fault = none := rfl
@[simp] theorem State.reset_prog : State.reset.prog = [] := rfl
@[simp] theorem State.reset_strict : State.reset.strict = false := rfl
@[simp] theorem State.reset_memWord (a : MemIx) : State.reset.memWord a = 0 := rfl
@[simp] theorem State.reset_reg (r : Reg) : State.reset.reg r = 0 := by
  simp [State.reg, State.reset]

end Sys2Proof.Machine
end

