-- ==== Sys2Proof/Laws/Memory.lean ====
section
/-!
SUPPORT. Registers and data memory: read after write, frames, and the canonical form of the data memory.
-/
namespace Sys2Proof.Machine

/-! ## Registers -/

@[simp] theorem State.reg_setReg_same (s : State) (r : Reg) (v : Word) : (s.setReg r v).reg r = v := by
  simp [State.reg, State.setReg]

theorem State.reg_setReg (s : State) (r q : Reg) (v : Word) :
    (s.setReg r v).reg q = if q = r then v else s.reg q := by
  simp [State.reg, State.setReg, Vector.getElem_set, Fin.ext_iff, eq_comm]

theorem State.reg_setReg_ne (s : State) {r q : Reg} (v : Word) (h : q ≠ r) :
    (s.setReg r v).reg q = s.reg q := by
  simp [State.reg_setReg, h]

/-- Equal register reads are equal register files. -/
theorem State.regs_ext {s t : State} (h : ∀ r, t.reg r = s.reg r) : t.regs = s.regs :=
  Vector.ext fun i hi => h ⟨i, hi⟩

/-! ## Reads and writes of the memory list -/

theorem Memory.read_cons (b : Nat) (w : Word) (m : Memory) (a : Nat) :
    Memory.read ((b, w) :: m) a = if b = a then w else Memory.read m a := rfl

/-- Below the first listed index everything reads as unlisted. -/
theorem Memory.read_below {m : Memory} {lo a : Nat} (h : Memory.wfFrom lo m = true) (ha : a < lo) :
    Memory.read m a = Memory.unlisted := by
  induction m generalizing lo with
  | nil => rfl
  | cons e m ih =>
    obtain ⟨b, w⟩ := e
    simp only [Memory.wfFrom, Bool.and_eq_true, decide_eq_true_eq] at h
    rw [Memory.read_cons, if_neg (by omega)]
    exact ih h.2 (by omega)

theorem Memory.read_entry (a : Nat) (v : Word) (m : Memory) (b : Nat) (h : Memory.read m a = Memory.unlisted) :
    Memory.read (Memory.entry a v m) b = if b = a then v else Memory.read m b := by
  unfold Memory.entry
  split
  · rename_i hv; split <;> simp_all
  · rw [Memory.read_cons]; simp only [eq_comm]

/-- A read after a write: the value written at its index, the old word elsewhere. -/
theorem Memory.read_write {m : Memory} {lo : Nat} (h : Memory.wfFrom lo m = true) (a : Nat) (v : Word) (b : Nat) :
    Memory.read (Memory.write m a v) b = if b = a then v else Memory.read m b := by
  induction m generalizing lo with
  | nil => exact Memory.read_entry a v [] b rfl
  | cons e m ih =>
    obtain ⟨c, w⟩ := e
    simp only [Memory.wfFrom, Bool.and_eq_true, decide_eq_true_eq] at h
    unfold Memory.write
    split
    · refine Memory.read_entry a v _ b ?_
      rw [Memory.read_cons, if_neg (by omega)]
      exact Memory.read_below h.2 (by omega)
    · split
      · rename_i hac; subst hac
        rw [Memory.read_entry _ _ _ _ (Memory.read_below h.2 (by omega)), Memory.read_cons]
        split
        · rfl
        · rename_i hb; rw [if_neg (Ne.symm hb)]
      · rw [Memory.read_cons, Memory.read_cons, ih h.2]
        split
        · subst_vars; rw [if_neg (by omega)]
        · rfl

theorem Memory.wfFrom_mono {m : Memory} {lo lo' : Nat} (h : Memory.wfFrom lo m = true) (hl : lo' ≤ lo) :
    Memory.wfFrom lo' m = true := by
  cases m with
  | nil => rfl
  | cons e m =>
    simp only [Memory.wfFrom, Bool.and_eq_true, decide_eq_true_eq] at h ⊢
    exact ⟨⟨⟨by omega, h.1.1.2⟩, h.1.2⟩, h.2⟩

theorem Memory.wfFrom_entry {a lo : Nat} {v : Word} {m : Memory} (hlo : lo ≤ a) (ha : a < 256)
    (h : Memory.wfFrom (a + 1) m = true) : Memory.wfFrom lo (Memory.entry a v m) = true := by
  unfold Memory.entry
  split
  · exact Memory.wfFrom_mono h (by omega)
  · simp_all [Memory.wfFrom]

theorem Memory.wfFrom_write {m : Memory} {lo a : Nat} (h : Memory.wfFrom lo m = true) (hlo : lo ≤ a)
    (ha : a < 256) (v : Word) : Memory.wfFrom lo (Memory.write m a v) = true := by
  induction m generalizing lo with
  | nil => exact Memory.wfFrom_entry hlo ha rfl
  | cons e m ih =>
    obtain ⟨b, w⟩ := e
    have h' := h
    simp only [Memory.wfFrom, Bool.and_eq_true, decide_eq_true_eq] at h'
    unfold Memory.write
    split
    · refine Memory.wfFrom_entry hlo ha ?_
      simp only [Memory.wfFrom, Bool.and_eq_true, decide_eq_true_eq]
      exact ⟨⟨⟨by omega, h'.1.1.2⟩, h'.1.2⟩, h'.2⟩
    · split
      · subst_vars; exact Memory.wfFrom_entry hlo ha h'.2
      · simp only [Memory.wfFrom, Bool.and_eq_true, decide_eq_true_eq]
        exact ⟨h'.1, ih h'.2 (by omega)⟩

/-- Every write of the machine keeps the canonical form. -/
theorem State.setMem_wf {s : State} (h : Memory.wf s.mem = true) (a : MemIx) (v : Word) :
    Memory.wf (s.setMem a v).mem = true :=
  Memory.wfFrom_write h (Nat.zero_le _) a.isLt v

theorem State.reset_memWf : Memory.wf State.reset.mem = true := rfl

/-- A data word after a write. -/
theorem State.memWord_setMem {s : State} (h : Memory.wf s.mem = true) (a b : MemIx) (v : Word) :
    (s.setMem a v).memWord b = if b = a then v else s.memWord b := by
  have := Memory.read_write h a.val v b.val
  simpa [State.memWord, Fin.ext_iff] using this

end Sys2Proof.Machine
end

