-- ==== Sys2Proof/Laws/Exec.lean ====
section
/-!
SUPPORT. What one instruction and one step can do, said once: the inversion lemmas later proofs cite.
-/
namespace Sys2Proof.Machine

/-- The shape of the next state of an instruction. -/
inductive Effect (i : Instr) (s : State) : State → Prop where
  | fatal (c : FatalCause) : Effect i s (s.raise c)
  | register (d : Reg) (v : Word) (writes : dest i = some d) : Effect i s (s.setReg d v).advance
  | store (d : Reg) (a : MemIx) (isStr : i = .str d a) : Effect i s (s.setMem a (s.reg d)).advance
  | compare (n : Reg) (o : Op2) (isCmp : i = .cmp n o) :
      Effect i s (s.setFlag (compareFlag (s.reg n) (s.val o))).advance
  | jump (o : BrOp) (l : LabelId) (t : LineIndex) (isBr : i = o.instr l) (taken : branchTaken o s.flag = true)
      (hit : labelIndex s.prog l = some t) : Effect i s (s.jump t)
  | advance : Effect i s s.advance
  | stop (isHalt : i = .halt) : Effect i s s.stop

theorem State.branchTo_effect (s : State) (o : BrOp) (l : LabelId) : Effect (o.instr l) s (s.branchTo o l) := by
  unfold State.branchTo State.branch
  split
  · exact .fatal _
  · split
    · rename_i h _; exact .jump o l _ rfl ‹_› h
    · exact .advance

theorem State.shift_effect {i : Instr} (s : State) (f : Word → Nat → Word) (d n : Reg) (o : Op2)
    (h : dest i = some d) : Effect i s (s.shift f d n o) := by
  unfold State.shift
  split
  · exact .register d _ h
  · exact .fatal _

/-- Every instruction answers a next state, of one of the seven shapes. -/
theorem exec_effect (i : Instr) (s : State) : ∃ t, exec i s = .next t ∧ Effect i s t := by
  cases i with
  | ldr d a => exact ⟨_, rfl, .register d _ rfl⟩
  | str d a => exact ⟨_, rfl, .store d a rfl⟩
  | add d n o => exact ⟨_, rfl, .register d _ rfl⟩
  | sub d n o => exact ⟨_, rfl, .register d _ rfl⟩
  | and d n o => exact ⟨_, rfl, .register d _ rfl⟩
  | orr d n o => exact ⟨_, rfl, .register d _ rfl⟩
  | eor d n o => exact ⟨_, rfl, .register d _ rfl⟩
  | lsl d n o => exact ⟨_, rfl, s.shift_effect _ d n o rfl⟩
  | lsr d n o => exact ⟨_, rfl, s.shift_effect _ d n o rfl⟩
  | mov d o => exact ⟨_, rfl, .register d _ rfl⟩
  | mvn d o => exact ⟨_, rfl, .register d _ rfl⟩
  | cmp n o => exact ⟨_, rfl, .compare n o rfl⟩
  | b l => exact ⟨_, rfl, s.branchTo_effect .b l⟩
  | beq l => exact ⟨_, rfl, s.branchTo_effect .beq l⟩
  | bne l => exact ⟨_, rfl, s.branchTo_effect .bne l⟩
  | bgt l => exact ⟨_, rfl, s.branchTo_effect .bgt l⟩
  | blt l => exact ⟨_, rfl, s.branchTo_effect .blt l⟩
  | halt => exact ⟨_, rfl, .stop rfl⟩
  | label l => exact ⟨_, rfl, .advance⟩
  | blank => exact ⟨_, rfl, .advance⟩
  | unk op =>
    refine ⟨_, rfl, ?_⟩
    split
    · exact .fatal _
    · exact .advance
  | bad => exact ⟨_, rfl, .fatal _⟩

theorem exec_effect_of {i : Instr} {s t : State} (h : exec i s = .next t) : Effect i s t := by
  obtain ⟨u, hu, he⟩ := exec_effect i s
  rw [h] at hu
  cases hu; exact he

/-- The constant inputs stay (R201). -/
theorem Effect.prog {i : Instr} {s t : State} (h : Effect i s t) : t.prog = s.prog := by cases h <;> rfl
theorem Effect.strict {i : Instr} {s t : State} (h : Effect i s t) : t.strict = s.strict := by cases h <;> rfl

/-! ## The step (R100) -/

theorem step_of_tooLong {s : State} (h : Config.maxLines < s.prog.length) : step s = .refused .programTooLong := by
  simp [step, h]

theorem step_of_halted {s : State} (hp : programWf s.prog = true) (h : s.running = false) : step s = .next s := by
  have hp' : ¬ Config.maxLines < s.prog.length := by simpa [programWf] using hp
  simp [step, hp', h]

theorem step_of_noLine {s : State} (hp : programWf s.prog = true) (h : s.running = true)
    (hl : s.fetch = none) : step s = .next (s.raise .pcOutOfRange) := by
  have hp' : ¬ Config.maxLines < s.prog.length := by simpa [programWf] using hp
  simp [step, hp', h, hl]

theorem State.Fetches.fetch {s : State} {w : IWord} (h : s.Fetches w) : s.fetch = some w := h.line

theorem step_of_fetches {s : State} {w : IWord} (h : s.Fetches w) :
    step s = match decode w with
      | .error e => .next (s.raise (decodeCause e))
      | .ok i => exec i s := by
  have hp' : ¬ Config.maxLines < s.prog.length := by simpa [programWf] using h.progWf
  cases hd : decode w <;> simp [step, hp', h.running, h.fetch, hd]

/-- What a step that answers a next state can have been. -/
theorem step_cases {s t : State} (h : step s = .next t) : programWf s.prog = true ∧
    ((s.running = false ∧ t = s) ∨
     (s.running = true ∧ s.fetch = none ∧ t = s.raise .pcOutOfRange) ∨
     (∃ w e, s.Fetches w ∧ decode w = .error e ∧ t = s.raise (decodeCause e)) ∨
     (∃ w i, s.Fetches w ∧ decode w = .ok i ∧ exec i s = .next t)) := by
  have hp : programWf s.prog = true := by
    by_contra hc
    rw [step_of_tooLong (by simpa [programWf] using hc)] at h
    cases h
  refine ⟨hp, ?_⟩
  cases hr : s.running with
  | false => rw [step_of_halted hp hr] at h; cases h; exact .inl ⟨rfl, rfl⟩
  | true =>
    cases hf : s.fetch with
    | none => rw [step_of_noLine hp hr hf] at h; cases h; exact .inr (.inl ⟨rfl, rfl, rfl⟩)
    | some w =>
      have hw : s.Fetches w := ⟨hp, hr, hf⟩
      rw [step_of_fetches hw] at h
      cases hd : decode w with
      | error e => rw [hd] at h; cases h; exact .inr (.inr (.inl ⟨w, e, hw, hd, rfl⟩))
      | ok i => rw [hd] at h; exact .inr (.inr (.inr ⟨w, i, hw, hd, h⟩))

/-! ## Placing a word (withFetchWord) -/

theorem placeLine_get (ls : List IWord) (n : Nat) (w : IWord) : (placeLine ls n w)[n]? = some w := by
  induction n generalizing ls with
  | zero => cases ls <;> simp [placeLine]
  | succ n ih => cases ls <;> simp [placeLine, ih]

theorem State.placePc_lt (s : State) : s.placePc.toNat < Config.maxLines := by
  unfold State.placePc; split
  · assumption
  · decide

/-- The next step of a state with a placed word fetches that word. -/
theorem State.placeFetch_fetches (s : State) (w : IWord) : (s.placeFetch w).Fetches w where
  progWf := by simp [programWf, State.placeFetch]
  running := rfl
  line := by
    simp [State.placeFetch, State.placePc_lt, placeLine_get]

end Sys2Proof.Machine
end

