-- ==== Sys2Proof/Laws/LabelIndex.lean ====
section
/-!
SUPPORT. The label map: a lookup after an insertion, and the builder one line at a time.
-/
namespace Sys2Proof.Machine

variable {A L : Type} [DecidableEq L]

/-- The new entry is found, every other entry stays (R92). -/
theorem LabelMap.lookup_insert (m : LabelMap L) (l k : L) (t : LineIndex) :
    (m.insert l t).lookup k = if l = k then some t else m.lookup k := by
  induction m with
  | nil => simp [LabelMap.insert, LabelMap.lookup]
  | cons e m ih =>
    obtain ⟨j, u⟩ := e
    by_cases hj : j = l
    · subst hj; simp only [LabelMap.insert, if_true, LabelMap.lookup]
      split <;> rfl
    · simp only [LabelMap.insert, if_neg hj, LabelMap.lookup, ih]
      by_cases hjk : j = k
      · subst hjk; simp [Ne.symm hj]
      · simp [hjk]

theorem buildLabelIndex_nil (declares : A → Option L) (i : Nat) (m : LabelMap L) :
    buildLabelIndex declares i [] m = m := rfl

/-- A line that declares nothing leaves no trace in the index. -/
theorem buildLabelIndex_cons_none {declares : A → Option L} {x : A} (h : declares x = none) (i : Nat) (xs : List A)
    (m : LabelMap L) : buildLabelIndex declares i (x :: xs) m = buildLabelIndex declares (i + 1) xs m := by
  simp [buildLabelIndex, h]

/-- A declaration maps its label to the next line. -/
theorem buildLabelIndex_cons_some {declares : A → Option L} {x : A} {l : L} (h : declares x = some l) (i : Nat)
    (xs : List A) (m : LabelMap L) : buildLabelIndex declares i (x :: xs) m =
      buildLabelIndex declares (i + 1) xs (m.insert l (BitVec.ofNat 16 (i + 1))) := by
  simp [buildLabelIndex, h]

/-! ## What the builder computes -/

/-- The place of the last line that declares `l`. -/
def lastDecl (declares : A → Option L) (l : L) : List A → Option Nat
  | [] => none
  | x :: xs =>
    match lastDecl declares l xs with
    | some j => some (j + 1)
    | none => if declares x = some l then some 0 else none

/-- The builder maps a label to the line after its last declaration (R92), and keeps an older entry where there is none. -/
theorem lookup_buildLabelIndex (declares : A → Option L) (l : L) (xs : List A) (i : Nat) (m : LabelMap L) :
    (buildLabelIndex declares i xs m).lookup l =
      match lastDecl declares l xs with
      | some j => some (BitVec.ofNat 16 (i + j + 1))
      | none => m.lookup l := by
  induction xs generalizing i m with
  | nil => rfl
  | cons x xs ih =>
    have hj : ∀ j, i + 1 + j + 1 = i + (j + 1) + 1 := fun j => by omega
    cases hx : declares x with
    | none =>
      rw [buildLabelIndex_cons_none hx, ih]
      cases hl : lastDecl declares l xs <;> simp [lastDecl, hl, hx, hj]
    | some k =>
      rw [buildLabelIndex_cons_some hx, ih]
      cases hl : lastDecl declares l xs with
      | some j => simp [lastDecl, hl, hj]
      | none =>
        simp only [lastDecl, hl, hx, LabelMap.lookup_insert, Option.some.injEq]
        by_cases hk : k = l <;> simp [hk]

/-- No line declares a label without a last declaration. -/
theorem lastDecl_none {declares : A → Option L} {l : L} {xs : List A} (h : lastDecl declares l xs = none) :
    ∀ x ∈ xs, declares x ≠ some l := by
  induction xs with
  | nil => simp
  | cons y ys ih =>
    cases hl : lastDecl declares l ys with
    | some i => simp [lastDecl, hl] at h
    | none =>
      simp only [lastDecl, hl] at h
      split at h
      · cases h
      · intro x hx
        rcases List.mem_cons.mp hx with rfl | hx
        · assumption
        · exact ih hl x hx

/-- The last declaration is one, and none follows it. -/
theorem lastDecl_some {declares : A → Option L} {l : L} {xs : List A} {j : Nat}
    (h : lastDecl declares l xs = some j) :
    (∃ x, xs[j]? = some x ∧ declares x = some l) ∧ ∀ k x, j < k → xs[k]? = some x → declares x ≠ some l := by
  induction xs generalizing j with
  | nil => simp [lastDecl] at h
  | cons x xs ih =>
    cases hl : lastDecl declares l xs with
    | some i =>
      simp only [lastDecl, hl, Option.some.injEq] at h
      subst h
      refine ⟨by simpa using (ih hl).1, fun k y hk hy => ?_⟩
      cases k with
      | zero => omega
      | succ k => exact (ih hl).2 k y (by omega) (by simpa using hy)
    | none =>
      simp only [lastDecl, hl] at h
      split at h
      · cases h
        refine ⟨⟨x, rfl, ‹_›⟩, fun k y hk hy => ?_⟩
        cases k with
        | zero => omega
        | succ k => exact lastDecl_none hl y (List.mem_of_getElem? (by simpa using hy))
      · cases h

end Sys2Proof.Machine
end

