-- ==== Sys2Proof/Laws/PerInstr.lean ====
section
/-!
SUPPORT. The family RoundTrip, one lemma per constructor of `Instr`: the word of a well-formed instruction decodes to it.
-/
namespace Sys2Proof.Laws.RoundTrip

/-- The word of `i` decodes to `i`. -/
def Statement (i : Instr) : Prop := i.wf = true → decode (encode i) = .ok i

theorem ldr (d : Reg) (a : MemIx) : Statement (.ldr d a) := fun _ => decode_encMem .ldr d a
theorem str (d : Reg) (a : MemIx) : Statement (.str d a) := fun _ => decode_encMem .str d a
theorem add (d n : Reg) (o : Op2) : Statement (.add d n o) := fun _ => decode_encAlu3 .add d n o
theorem sub (d n : Reg) (o : Op2) : Statement (.sub d n o) := fun _ => decode_encAlu3 .sub d n o
theorem and (d n : Reg) (o : Op2) : Statement (.and d n o) := fun _ => decode_encAlu3 .and d n o
theorem orr (d n : Reg) (o : Op2) : Statement (.orr d n o) := fun _ => decode_encAlu3 .orr d n o
theorem eor (d n : Reg) (o : Op2) : Statement (.eor d n o) := fun _ => decode_encAlu3 .eor d n o
theorem lsl (d n : Reg) (o : Op2) : Statement (.lsl d n o) := fun _ => decode_encAlu3 .lsl d n o
theorem lsr (d n : Reg) (o : Op2) : Statement (.lsr d n o) := fun _ => decode_encAlu3 .lsr d n o
theorem mov (d : Reg) (o : Op2) : Statement (.mov d o) := fun _ => decode_encAlu2 .mov d o
theorem mvn (d : Reg) (o : Op2) : Statement (.mvn d o) := fun _ => decode_encAlu2 .mvn d o
theorem cmp (n : Reg) (o : Op2) : Statement (.cmp n o) := fun _ => decode_encCmp n o
theorem b (l : LabelId) : Statement (.b l) := fun _ => decode_encBr .b l
theorem beq (l : LabelId) : Statement (.beq l) := fun _ => decode_encBr .beq l
theorem bne (l : LabelId) : Statement (.bne l) := fun _ => decode_encBr .bne l
theorem bgt (l : LabelId) : Statement (.bgt l) := fun _ => decode_encBr .bgt l
theorem blt (l : LabelId) : Statement (.blt l) := fun _ => decode_encBr .blt l
theorem halt : Statement .halt := fun _ => by decide
theorem label (l : LabelId) : Statement (.label l) := fun _ => by simp [encode, decodeFields, lineKind]
theorem blank : Statement .blank := fun _ => by decide
theorem unk (op : BitVec 8) : Statement (.unk op) := fun h => by
  simp [encode, decodeFields, lineKind_reserved h]
theorem bad : Statement .bad := fun _ => by decide

end Sys2Proof.Laws.RoundTrip
end

