-- ==== Sys2Proof/Tests/Slice0.lean ====
section
/-!
SUPPORT. The model's own tests: words written out from the encodings of 30_encoding.md, vectors of 95_test_vectors.md (the
section is named at each group), and for every obligation with hypotheses a witness that meets them.
-/
namespace Sys2Proof.Tests
open Sys2Proof.Machine Sys2Proof.Claims

/-! ## Helpers: a small start state (R28) and what a step answers -/

/-- A machine after reset with a program and preloaded registers and data words. -/
def start (prog : List IWord) (regs : List (Reg × Word)) (mem : List (MemIx × Word)) : State :=
  mem.foldl (fun s e => s.setMem e.1 e.2) (regs.foldl (fun s e => s.setReg e.1 e.2) (construct prog false))

/-- The next state, if the step has one. -/
def nextOf : StepResult → Option State
  | .next t => some t
  | _ => none

/-- One register after one step of a one-line program. -/
def regAfter (w : IWord) (regs : List (Reg × Word)) (r : Reg) : Option Word :=
  (nextOf (step (start [w] regs []))).map (fun t => t.reg r)

/-- FAULT, Running and `pc` after one step of a one-line program. -/
def faultAfter (w : IWord) (regs : List (Reg × Word)) : Option (Option FatalCause × Bool × LineIndex) :=
  (nextOf (step (start [w] regs []))).map (fun t => (t.fault, t.running, t.pc))

/-- The flag after one step of a one-line program. -/
def flagAfter (w : IWord) (regs : List (Reg × Word)) : Option Flag :=
  (nextOf (step (start [w] regs []))).map (fun t => t.flag)

/-- The answer is `next t` when the next state is `t`: states can be compared, answers cannot. -/
theorem next_of {r : StepResult} {t : State} (h : nextOf r = some t) : r = .next t := by
  cases r with
  | next u => simpa [nextOf] using h
  | fault f => simp [nextOf] at h
  | refused f => simp [nextOf] at h

/-! ## WellFormed: the ill-formed terms are refused (R81) -/

theorem test_wf_refuses_below_reserved : Instr.wf (.unk 0x13) = false := by decide
theorem test_wf_refuses_above_reserved : Instr.wf (.unk 0xFF) = false := by decide
theorem test_wf_refuses_blank_opcode : Instr.wf (.unk 0x00) = false := by decide
theorem test_wf_takes_reserved : Instr.wf (.unk 0x14) = true ∧ Instr.wf (.unk 0xFE) = true := by decide

theorem programWf_replicate (n : Nat) : programWf (List.replicate n 0) = decide (n ≤ Config.maxLines) := by
  rw [programWf, List.length_replicate]

theorem test_programWf_refuses : programWf (List.replicate 65536 0) = false := programWf_replicate _
theorem test_programWf_takes : programWf (List.replicate 65535 0) = true := programWf_replicate _

/-! ## Decoding: words written out field by field, bit by bit, from R75 to R77 -/

theorem test_decode_mem : decode (mkWord 0b00000010 0b00001111 0b00000000 0b00000000
    0b00000000000000000000000011111111) = .ok (.ldr 15 255) := by decide
theorem test_decode_alu3 : decode (mkWord 0b00000101 0b00000010 0b00000011 0b00000001
    0b00000000000000000000000000000100) = .ok (.sub 2 3 (.reg 4)) := by decide
theorem test_decode_alu2 : decode (mkWord 0b00001100 0b00000011 0b00000000 0b00000001
    0b00000000000000000000000000001111) = .ok (.mvn 3 (.reg 15)) := by decide
theorem test_decode_cmp : decode (mkWord 0b00001101 0b00000000 0b00001111 0b00000000
    0b11111111111111111111111111111011) = .ok (.cmp 15 (.imm (-5))) := by decide
theorem test_decode_br : decode (mkWord 0b00010001 0b00000000 0b00000000 0b00000000
    0b11111111111111111111111111111111) = .ok (.bgt 0xFFFFFFFF) := by decide
theorem test_decode_halt : decode (mkWord 0b00010011 0b00000000 0b00000000 0b00000000
    0b00000000000000000000000000000000) = .ok .halt := by decide
theorem test_decode_label_ignores : decode 0x01ABCDEF00000007 = .ok (.label 7) := by decide
theorem test_decode_blank_ignores : decode 0x00FFFFFFFFFFFFFF = .ok .blank := by decide
theorem test_decode_unk_ignores : decode 0x7F123456789ABCDE = .ok (.unk 0x7F) := by decide
theorem test_decode_bad_ignores : decode 0xFFFFFFFFFFFFFFFF = .ok .bad := by decide
theorem test_decode_memory_words : decode 0x020000000000002A = .ok (.ldr 0 42) ∧
    decode 0x0307000000000000 = .ok (.str 7 0) ∧ decode 0x030F0000000000FF = .ok (.str 15 255) := by decide
theorem test_decode_arithmetic_words : decode 0x04020000FFFFFFFF = .ok (.add 2 0 (.imm (-1))) ∧
    decode 0x0502030100000004 = .ok (.sub 2 3 (.reg 4)) := by decide
theorem test_decode_bitwise_words : decode 0x0603010100000002 = .ok (.and 3 1 (.reg 2)) ∧
    decode 0x0704010100000002 = .ok (.orr 4 1 (.reg 2)) ∧
    decode 0x0805010100000002 = .ok (.eor 5 1 (.reg 2)) := by decide
theorem test_decode_shift_words : decode 0x090001000000001F = .ok (.lsl 0 1 (.imm 31)) ∧
    decode 0x0A00010100000002 = .ok (.lsr 0 1 (.reg 2)) := by decide
theorem test_decode_move_words : decode 0x0B02000100000001 = .ok (.mov 2 (.reg 1)) ∧
    decode 0x0C00000000000005 = .ok (.mvn 0 (.imm 5)) := by decide
theorem test_decode_branch_words : decode 0x0E00000000000002 = .ok (.b 2) ∧ decode 0x0F00000000000000 = .ok (.beq 0) ∧
    decode 0x1000000000000000 = .ok (.bne 0) ∧ decode 0x1100000000000001 = .ok (.bgt 1) ∧
    decode 0x1200000000000000 = .ok (.blt 0) := by decide

/-- Must-be-zero violations (R79; 95_test_vectors.md 2.1 to 2.8). -/
theorem test_decode_must_be_zero : decode 0x0200010000000000 = .error .malformedOperand ∧
    decode 0x0200000100000000 = .error .malformedOperand ∧ decode 0x0400000200000000 = .error .malformedOperand ∧
    decode 0x0B00010000000000 = .error .malformedOperand ∧ decode 0x0D01000000000000 = .error .malformedOperand ∧
    decode 0x0E01000000000000 = .error .malformedOperand ∧ decode 0x1300000000000001 = .error .malformedOperand := by
  decide

/-- Indices just past their range (R80). -/
theorem test_decode_index : decode 0x0200000000000100 = .error .indexOutOfRange ∧
    decode 0x0210000000000000 = .error .indexOutOfRange ∧ decode 0x0400100000000000 = .error .indexOutOfRange ∧
    decode 0x0400010100000010 = .error .indexOutOfRange ∧ decode 0x0B000001FFFFFFFF = .error .indexOutOfRange := by
  decide

/-- MalformedOperand comes before IndexOutOfRange (R71, R84). -/
theorem test_decode_order : decode 0x0410000200000000 = .error .malformedOperand := by decide

/-- A register payload of 16 or more is an immediate's ordinary value when `k = 0` (R78). -/
theorem test_decode_large_immediate : decode 0x0400010000000010 = .ok (.add 0 1 (.imm 16)) := by decide

theorem test_encode : encode (.sub 2 3 (.reg 4)) = 0x0502030100000004 ∧ encode (.cmp 15 (.imm (-5))) = 0x0D000F00FFFFFFFB ∧
    encode (.str 7 0) = 0x0307000000000000 ∧ encode (.unk 0x14) = 0x1400000000000000 := by decide

theorem test_table_rows : opcodeTable.length = 42 := by decide
theorem test_decodeTableWord : decodeTableWord 64 0x0401010000000001 = some (.add 1 1 (.imm 1)) ∧
    decodeTableWord 64 0x0410010000000001 = none := by decide

/-! ## One step per instruction (95_test_vectors.md section 2) -/

theorem test_ldr : (nextOf (step (start [0x020000000000002A] [] [(42, 123)]))).map (fun t => (t.reg 0, t.pc)) =
    some (123, 1) := by decide
theorem test_ldr_unwritten : regAfter 0x0203000000000007 [(3, 9)] 3 = some 0 := by decide
theorem test_str : (nextOf (step (start [0x03000000000000FF] [(0, 2147483647)] []))).map
    (fun t => (t.memWord 255, t.memWord 254)) = some (2147483647, 0) := by decide
theorem test_str_zero_keeps_form : (nextOf (step (start [0x0301000000000009] [] [(9, 77)]))).map (fun t => t.mem) =
    some [] := by decide
theorem test_add_wraps : regAfter 0x0402000000000001 [(0, 2147483647)] 2 = some (-2147483648) := by decide
theorem test_add_same_register : regAfter 0x0400000100000000 [(0, 21)] 0 = some 42 := by decide
theorem test_sub_order : regAfter 0x0502030100000004 [(3, 10), (4, 3)] 2 = some 7 := by decide
theorem test_sub_wraps : regAfter 0x0502000080000000 [] 2 = some (-2147483648) := by decide
theorem test_and : regAfter 0x06020000FFFFFF00 [(0, 305419896)] 2 = some 305419776 := by decide
theorem test_orr : regAfter 0x07020000FFFFFF00 [(0, 305419896)] 2 = some (-136) := by decide
theorem test_eor : regAfter 0x08020000FFFFFF00 [(0, 305419896)] 2 = some (-305419912) := by decide
theorem test_lsl : regAfter 0x090001000000001F [(1, 3)] 0 = some (-2147483648) := by decide
theorem test_lsl_32 : faultAfter 0x0900010000000020 [(1, 1)] = some (some .shiftAmountOutOfRange, false, 0) := by decide
theorem test_lsr_modes : aluLsr .logical (-16) 4 = 268435455 ∧ aluLsr .arithmetic (-16) 4 = -1 ∧
    aluLsr .logical (-1) 31 = 1 ∧ aluLsr .arithmetic (-2147483648) 1 = -1073741824 := by decide
theorem test_lsr_nonnegative : ∃ t, step (start [0x0A00010000000008] [(1, 4095)] []) = .next t ∧ t.reg 0 = 15 := by
  refine ⟨_, rfl, ?_⟩
  show aluLsr Config.lsrMode 4095 8 = 15
  cases Config.lsrMode <;> decide
theorem test_mov : regAfter 0x0B03000080000000 [] 3 = some (-2147483648) := by decide
theorem test_mov_register : regAfter 0x0B02000100000001 [(1, 7)] 2 = some 7 := by decide
theorem test_mvn : regAfter 0x0C0300010000000F [(15, 3855)] 3 = some (-3856) := by decide
theorem test_cmp_signed : flagAfter 0x0D00000000000000 [(0, -1)] = some .less := by decide
theorem test_cmp_no_wrap : flagAfter 0x0D00000080000000 [(0, 2147483647)] = some .greater := by decide
theorem test_halt : faultAfter 0x1300000000000000 [] = some (none, false, 0) := by decide
theorem test_label : faultAfter 0x0100000000000000 [] = some (none, true, 1) := by decide
theorem test_blank : faultAfter 0x0000000000000000 [] = some (none, true, 1) := by decide
theorem test_unk_permissive : faultAfter 0x1400000000000000 [] = some (none, true, 1) := by decide
theorem test_unk_strict : (nextOf (step (construct [0x1400000000000000] true))).map (fun t => (t.fault, t.running, t.pc)) =
    some (some .unknownMnemonic, false, 0) := by decide
theorem test_bad : faultAfter 0xFF00000000000000 [] = some (some .malformedOperand, false, 0) := by decide
theorem test_index_fatal : faultAfter 0x0200000000000100 [] = some (some .indexOutOfRange, false, 0) := by decide

/-! Branches: the program of 95_test_vectors.md 2.7, at its second line. -/

/-- The program of section 2.7 with the branch word `br`, at line 1 with the flag `f`. -/
def atBranch (br : IWord) (f : Flag) : State :=
  { construct [0x0D0000000000000A, br, 0x1300000000000000, 0x0100000000000000, 0x1300000000000000] false with
    pc := 1, flag := f }

/-- `pc` after the branch, for the flags EQUAL, LESS, GREATER, UNSET. -/
def pcAfterBranch (br : IWord) : List (Option LineIndex) :=
  [Flag.equal, .less, .greater, .unset].map (fun f => (nextOf (step (atBranch br f))).map (fun t => t.pc))

theorem test_b : pcAfterBranch 0x0E00000000000000 = [some 4, some 4, some 4, some 4] := by decide
theorem test_beq : pcAfterBranch 0x0F00000000000000 = [some 4, some 2, some 2, some 2] := by decide
theorem test_bne : pcAfterBranch 0x1000000000000000 = [some 2, some 4, some 4, some 2] := by decide
theorem test_bgt : pcAfterBranch 0x1100000000000000 = [some 2, some 2, some 4, some 2] := by decide
theorem test_blt : pcAfterBranch 0x1200000000000000 = [some 2, some 4, some 2, some 2] := by decide
theorem test_beq_unknown_untaken : faultAfter 0x0F00000000000000 [] = some (some .unknownLabel, false, 0) := by decide

/-- The duplicate label of section 2.7: the last declaration wins. -/
theorem test_label_index_last_wins : labelIndex [0x0E00000000000000, 0x0100000000000000, 0x0B00000000000001,
    0x0100000000000000, 0x0B01000000000001, 0x1300000000000000] 0 = some 4 := by decide

/-- P3: ids by first occurrence, and their entries. -/
theorem test_label_index_p3 : (let prog : List IWord := [0x0F00000000000000, 0x0200000000000000, 0x0201000000000001,
    0x0D00000100000001, 0x1100000000000001, 0x0B02000100000001, 0x0E00000000000002, 0x0100000000000001,
    0x0B02000100000000, 0x0100000000000002, 0x0100000000000000]
    (labelIndex prog 1, labelIndex prog 2, labelIndex prog 0, labelIndex prog 3)) =
    (some 8, some 10, some 11, none) := by decide

theorem test_withFetchWord : (nextOf (step (State.reset.withFetchWord 64 0x0B03000080000000))).map (fun t => t.reg 3) =
    some (-2147483648) := by decide
theorem test_withFetchWord_inside : (start [0, 0, 0] [] []).withFetchWord 64 0x1300000000000000 =
    start [0x1300000000000000, 0, 0] [] [] := by decide
theorem test_withFetchWord_last_pc : (({ State.reset with pc := 65535 }).withFetchWord 64 0x1300000000000000).pc = 0 := by
  decide

/-! The ports (R26 to R29). -/

theorem test_reset_beats_step : edge ⟨true, true, true, true, 5, 9⟩ (start [0] [(1, 7)] [(5, 8)]) =
    .next (start [0] [] []) := next_of (by decide)
theorem test_preload_memory : edge ⟨false, false, true, true, 255, -1⟩ (start [] [] []) =
    .next (start [] [] [(255, -1)]) := next_of (by decide)
theorem test_preload_register_low_bits : edge ⟨false, false, true, false, 0xF3, 9⟩ (start [] [] []) =
    .next (start [] [(3, 9)] []) := next_of (by decide)
theorem test_outputs : outputs (start [0x0F00000000000007] [(2, 5)] []) false 0x12 =
    ⟨0, some 7, true, 0, 0, 0, 5⟩ := by decide
theorem test_lbl_id_ends_with_the_program : (start [0x0F00000000000007] [] []).lblId = some 7 ∧
    (start [0x0F00000000000007] [] []).advance.lblId = none := by decide

/-! The text level (95_test_vectors.md 2.9 and P1). -/

theorem test_text_register_tokens : parseReg ['R', '0', '1', '6'] = some 16 ∧ parseReg ['R'] = none ∧
    parseReg ['R', '-', '1'] = none ∧ parseReg ['R', '1', 'x'] = none ∧ parseReg ['r', '1'] = none ∧
    parseReg ['1'] = none := by decide
theorem test_text_immediate_tokens : parseOp2 ['#', '-', '0'] = some (.imm 0) ∧ parseOp2 ['#'] = none ∧
    parseOp2 ['#', '-'] = none ∧ parseOp2 ['#', '1', '.', '5'] = none ∧ parseOp2 ['#', '0', 'x', '1', '0'] = none := by
  decide
theorem test_text_spelling : spell (fun _ => ['t']) (.cmp 15 (.imm (-5))) =
    ['C', 'M', 'P', ' ', 'R', '1', '5', ',', ' ', '#', '-', '5'] := by decide

/-- Lines 2, 6 and 8 of P1: `loop:`, `BLT loop`, `HALT`. -/
def loopLines : List Chars :=
  [['l', 'o', 'o', 'p', ':'], ['B', 'L', 'T', ' ', 'l', 'o', 'o', 'p'], ['H', 'A', 'L', 'T']]

theorem test_asm : asm loopLines = [0x0100000000000000, 0x1200000000000000, 0x1300000000000000] := by decide
theorem test_asm_clamps : asm [['M', 'O', 'V', ' ', 'R', '0', ',', ' ', 'R', '9', '9', '9', '9', '9', '9', '9', '9', '9', '9',
    '9']] = [0x0B000001FFFFFFFF] := by decide
theorem test_text_label_index : textLabelIndex loopLines ['l', 'o', 'o', 'p'] = some 1 := by decide

/-! ## Witnesses: every obligation with hypotheses has a concrete instance that meets them -/

/-- A machine about to execute `w`. -/
theorem start_fetches (w : IWord) : (start [w] [] []).Fetches w := ⟨rfl, rfl, rfl⟩

theorem witness_DecodeOfEncodeIsTheInstruction : Instr.wf (.unk 0xFE) = true ∧ Instr.wf (.sub 15 0 (.reg 15)) = true := by
  decide
theorem witness_NoInstructionHasTwoWords : decode 0x1300000000000000 = .ok .halt ∧ isMnemonic 0x1300000000000000 :=
  ⟨by decide, by unfold isMnemonic; decide⟩
theorem witness_DecodeErrorsAreExactlyTheRules : mustBeZeroViolated 0x1300000000000001 ∧
    ¬ mustBeZeroViolated 0x0200000000000100 ∧ indexTooBig 0x0200000000000100 ∧ ¬ indexTooBig 0x02000000000000FF ∧
    (opField 0xFF00000000000000).toNat = 0xFF ∧ decode 0xFF00000000000000 = .ok .bad ∧
    decode 0xFE00000000000000 ≠ .ok .bad := by
  unfold mustBeZeroViolated indexTooBig isMem isAlu3 isAlu2 isCmp isBr isHalt
  refine ⟨?_, ?_, ?_, ?_, ?_, ?_, ?_⟩ <;> decide
theorem witness_OpcodeTableIsTheDecoder : ∃ r ∈ opcodeTable, r.covers 0xFEFFFFFFFFFFFFFF = true ∧
    decode 0xFEFFFFFFFFFFFFFF = .ok (.unk 0xFE) :=
  ⟨⟨"UNK", 0xFF00000000000000#64, 0xFE00000000000000#64⟩, by decide, by decide, by decide⟩
theorem witness_IgnoredBitsChangeNothing : (opField 0x00FFFFFFFFFFFFFF).toNat = 0x00 ∧
    (opField 0x01FFFFFF00000007).toNat = 0x01 ∧ (opField 0x14FFFFFFFFFFFFFF).toNat = 0x14 ∧
    (opField 0xFE00000000000000).toNat = 0xFE ∧ (opField 0xFF00000000000000).toNat = 0xFF := by decide
theorem witness_StepRunsDecodedInstruction : (start [0x1300000000000000] [] []).Fetches 0x1300000000000000 ∧
    decode 0x1300000000000000 = .ok .halt := ⟨start_fetches _, by decide⟩
theorem witness_StepRaisesDecodeErrors : (start [0x1300000000000001] [] []).Fetches 0x1300000000000001 ∧
    decode 0x1300000000000001 = .error .malformedOperand ∧
    (start [0x0210000000000000] [] []).Fetches 0x0210000000000000 ∧
    decode 0x0210000000000000 = .error .indexOutOfRange :=
  ⟨start_fetches _, by decide, start_fetches _, by decide⟩
theorem witness_FetchPastTheEndIsFatal : programWf State.reset.prog = true ∧ State.reset.running = true ∧
    State.reset.prog.length ≤ State.reset.pc.toNat := by decide
theorem witness_StoppedMachineStaysStopped : programWf (start [0] [] []).stop.prog = true ∧
    (start [0] [] []).stop.running = false ∧
    edge ⟨false, true, false, false, 0, 0⟩ (start [0] [] []).stop = .next (start [0] [] []).stop :=
  ⟨by decide, by decide, next_of (by decide)⟩
theorem construct_length (n : Nat) : (construct (List.replicate n 0) false).prog.length = n := List.length_replicate
theorem witness_TooLongProgramIsRefused : ∃ s : State, 65535 < s.prog.length :=
  ⟨_, by rw [construct_length 65536]; decide⟩
theorem witness_EveryStepAnswersAndKeepsTheProgram : ∃ s : State, s.prog.length = 65535 := ⟨_, construct_length 65535⟩

/-- Each cause that a fetched word can have is the first that applies somewhere. -/
theorem witness_FirstApplicableCauseIsRaised :
    Applies (construct [0x1400000000000000] true) 0x1400000000000000 .unknownMnemonic ∧
    Applies State.reset 0x0410000200000000 .malformedOperand ∧ Applies State.reset 0x0410000200000000 .indexOutOfRange ∧
    Applies State.reset 0x0E00000000000000 .unknownLabel ∧
    Applies State.reset 0x0900010000000020 .shiftAmountOutOfRange ∧
    ¬ Applies State.reset 0x090001000000001F .shiftAmountOutOfRange := by
  simp only [Applies, mustBeZeroViolated, indexTooBig, isMem, isAlu3, isAlu2, isCmp, isBr, isHalt, isShift, rawAmount]
  refine ⟨?_, ?_, ?_, ?_, ?_, ?_⟩ <;> decide
theorem witness_StepIsTheDatapathOrFatal : (start [0x0900010000000020] [] []).Fetches 0x0900010000000020 ∧
    decode 0x0900010000000020 = .ok (.lsl 0 1 (.imm 32)) ∧
    executeFault (start [0x0900010000000020] [] []) (.lsl 0 1 (.imm 32)) = some .shiftAmountOutOfRange ∧
    executeFault (start [0x090001000000001F] [] []) (.lsl 0 1 (.imm 31)) = none := ⟨start_fetches _, by decide⟩
theorem witness_FatalStepsArePrecise : (start [0xFF00000000000000] [] []).fault = none ∧
    step (start [0xFF00000000000000] [] []) = .next ((start [0xFF00000000000000] [] []).raise .malformedOperand) :=
  ⟨by decide, next_of (by decide)⟩
/-- A line that fetches a word it decodes, in a machine without a fault, and the next state, without a fault too: what the
clauses of `PcMovesByTheMux` share. -/
def MuxCase (s : State) (w : IWord) (i : Instr) (t : State) : Prop :=
  s.Fetches w ∧ decode w = .ok i ∧ s.fault = none ∧ step s = .next t ∧ t.fault = none

/-- The taken branch, on the flag that takes it. -/
theorem witness_PcMovesByTheMux : MuxCase (atBranch 0x0F00000000000000 .equal) 0x0F00000000000000 (BrOp.beq.instr 0)
    ((atBranch 0x0F00000000000000 .equal).jump 4) ∧ takenTable .equal .beq = true :=
  ⟨⟨⟨rfl, rfl, rfl⟩, by decide, rfl, next_of (by decide), rfl⟩, rfl⟩
/-- The same branch, untaken. -/
theorem witness_PcMovesByTheMux_untaken : MuxCase (atBranch 0x0F00000000000000 .less) 0x0F00000000000000
    (BrOp.beq.instr 0) (atBranch 0x0F00000000000000 .less).advance ∧
    (∀ (o : BrOp) (l : LabelId), BrOp.beq.instr 0 = o.instr l → takenTable .less o = false) := by
  refine ⟨⟨⟨rfl, rfl, rfl⟩, by decide, rfl, next_of (by decide), rfl⟩, fun o l h => ?_⟩
  cases o <;> first | rfl | cases h
/-- HALT. -/
theorem witness_PcMovesByTheMux_halt : MuxCase (start [0x1300000000000000] [] []) 0x1300000000000000 .halt
    (start [0x1300000000000000] [] []).stop :=
  ⟨⟨rfl, rfl, rfl⟩, by decide, rfl, next_of (by decide), rfl⟩
/-- A plain advance, from the last line to `pc = N`. -/
theorem witness_PcMovesByTheMux_advance : MuxCase (start [0x0B03000000000007] [] []) 0x0B03000000000007 (.mov 3 (.imm 7))
    ((start [0x0B03000000000007] [] []).setReg 3 7).advance ∧ (Instr.mov 3 (.imm 7)) ≠ .halt ∧
    (∀ (o : BrOp) (l : LabelId), (Instr.mov 3 (.imm 7)) ≠ o.instr l) := by
  refine ⟨⟨⟨rfl, rfl, rfl⟩, by decide, rfl, next_of (by decide), rfl⟩, by decide, fun o l h => ?_⟩
  cases o <;> cases h
theorem witness_StepWritesAtMostOneCell : Memory.wf (start [0x0307000000000000] [(7, -5)] []).mem = true ∧
    (nextOf (step (start [0x0307000000000000] [(7, -5)] []))).map (fun t => t.memWord 0) = some (-5) ∧
    (start [0x0307000000000000] [(7, -5)] []).memWord 0 = 0 := by decide
theorem witness_FlagWrittenByCompareOnly : ExecutesCompare (start [0x0D00000000000002] [(0, 1)] []) ∧
    step (start [0x0D00000000000002] [(0, 1)] []) =
      .next ((start [0x0D00000000000002] [(0, 1)] []).setFlag .less).advance :=
  ⟨⟨0x0D00000000000002, 0, .imm 2, ⟨rfl, rfl, rfl⟩, by decide⟩, next_of (by decide)⟩
theorem witness_FlagReadByConditionalBranchesOnly : (atBranch 0x0E00000000000000 .less).Fetches 0x0E00000000000000 ∧
    (∀ (o : BrOp) (l : LabelId), decode 0x0E00000000000000 = .ok (o.instr l) → o = .b) ∧
    step (atBranch 0x0E00000000000000 .less) = .next ((atBranch 0x0E00000000000000 .less).jump 4) := by
  refine ⟨⟨rfl, rfl, rfl⟩, fun o l h => ?_, next_of (by decide)⟩
  rw [show decode 0x0E00000000000000 = .ok (.b 0) from by decide] at h
  cases o <;> first | rfl | cases h
theorem witness_FlagUnsetExactlyBeforeFirstCompare : (start [0x0D00000000000002] [] []).flag = .unset ∧
    run 1 (start [0x0D00000000000002] [] []) =
      .next ((start [0x0D00000000000002] [] []).setFlag .less).advance := ⟨rfl, next_of (by decide)⟩
theorem witness_DataMemoryStoredByStrLoadedByLdr : Memory.wf (start [0x0307000000000000] [(7, -5)] []).mem = true ∧
    step (start [0x0307000000000000] [(7, -5)] []) = .next ((start [0x0307000000000000] [(7, -5)] []).setMem 0 (-5)).advance ∧
    (start [0x0307000000000000] [(7, -5)] []).Fetches 0x0307000000000000 ∧
    (∀ d a, decode 0x0307000000000000 ≠ .ok (.ldr d a)) := by
  refine ⟨by decide, next_of (by decide), ⟨rfl, rfl, rfl⟩, fun d a h => ?_⟩
  rw [show decode 0x0307000000000000 = .ok (.str 7 0) from by decide] at h
  cases h
theorem witness_RegistersWrittenByDestinationOnly : regAfter 0x0B03000080000000 [] 3 = some (-2147483648) ∧
    (start [0x0B03000080000000] [] []).reg 3 = 0 := by decide
theorem witness_RegistersReadAsNamedOnly : (2 : Reg) ∉ sources (.add 2 0 (.imm 1)) ∧ (1 : Reg) ∉ sources (.str 0 9) ∧
    exec (.add 2 0 (.imm 1)) State.reset = .next (State.reset.setReg 2 1).advance :=
  ⟨by decide, by decide, next_of (by decide)⟩
theorem witness_RunningClearedByHaltAndFatalOnly : (start [0x1300000000000000] [] []).running = true ∧
    (start [0x1300000000000000] [] []).fault = none ∧
    step (start [0x1300000000000000] [] []) = .next (start [0x1300000000000000] [] []).stop :=
  ⟨rfl, rfl, next_of (by decide)⟩

/-- The invariant holds of a machine that runs (and of one that has stopped on a fatal condition). -/
theorem witness_InvariantKeptByEveryStep : (start [0xFF00000000000000] [] [(9, 77)]).Inv ∧
    ((start [0xFF00000000000000] [] [(9, 77)]).raise .malformedOperand).Inv ∧
    step (start [0xFF00000000000000] [] [(9, 77)]) =
      .next ((start [0xFF00000000000000] [] [(9, 77)]).raise .malformedOperand) := by
  refine ⟨⟨by decide, by decide, by decide, fun h => absurd rfl h⟩, ⟨by decide, by decide, by decide, fun _ => rfl⟩,
    next_of (by decide)⟩
theorem witness_ReachableStatesSatisfyInvariant : Reachable (start [0] [] [(255, -1)]) :=
  .edge ⟨false, false, true, true, 255, -1⟩ (construct [0] false) _ (.construct [0] false (by decide)) (next_of (by decide))
theorem witness_ResetSatisfiesInvariant : programWf [0x1300000000000000] = true := by decide
theorem witness_ResetTakesTheResetValues : (⟨true, true, true, true, 255, 1⟩ : Inputs).rst = true := by decide
theorem witness_PreloadWritesOneCell : (⟨false, false, true, true, 255, 1⟩ : Inputs).dbgWe = true ∧
    Memory.wf State.reset.mem = true ∧ (⟨false, false, true, false, 0xF3, 1⟩ : Inputs).dbgSel = false := by decide
theorem witness_OutputsShowTheState : ((3 : Reg).val = (0xF3 : BitVec 8).toNat % 16) ∧
    ((255 : MemIx).val = (0xFF : BitVec 8).toNat) ∧
    (start [0x0F00000000000007] [] []).prog[(start [0x0F00000000000007] [] []).pc.toNat]? = some 0x0F00000000000007 ∧
    State.reset.prog.length ≤ State.reset.pc.toNat := by decide
theorem witness_DataWordIsItsLatestWrite : Memory.wf State.reset.mem = true ∧
    edges [⟨false, false, true, true, 5, 9⟩, ⟨false, false, true, true, 5, 8⟩] State.reset =
      .next (State.reset.setMem 5 8) := ⟨by decide, next_of (by decide)⟩
theorem witness_EqualWordsAreEqualMemories : Memory.wf (Memory.write [(3, 7)] 255 1) = true ∧
    Memory.wf (Memory.write (Memory.write [] 255 1) 3 7) = true := by decide
theorem witness_StrStoresTheRegister : Memory.wf (start [] [] [(255, 1), (0, 2)]).mem = true := by decide
theorem witness_LslMovesBitsUp : 0 ≤ (State.reset.val (.imm 0)).toInt ∧ (State.reset.val (.imm 31)).toInt ≤ 31 := by decide
theorem witness_LsrMovesBitsDown : 0 ≤ (State.reset.val (.reg 0)).toInt ∧ (State.reset.val (.imm 31)).toInt ≤ 31 := by decide
theorem witness_ShiftAmountOutOfRangeIsFatal : (State.reset.val (.imm (-1))).toInt < 0 ∧
    31 < (State.reset.val (.imm 32)).toInt := by decide
theorem witness_BranchDecisionTable : labelIndex [0x0100000000000007] 7 = some 1 := by decide
theorem witness_UnknownLabelIsFatal : labelIndex [0x0100000000000007] 8 = none := by decide
theorem witness_UnknownMnemonicByStrict : State.reset.strict = false ∧ (construct [] true).strict = true := by decide
theorem witness_OperandFormsAgree : (start [] [(4, 9)] []).reg 4 = 9 := by decide
theorem witness_AddUndoesSub : (Op2.imm 3) ≠ .reg 2 ∧ (Op2.reg 3) ≠ .reg 2 := by decide
theorem witness_LsrModesAgreeExactlyOnNonNegative : aluLsr .logical (-1) 0 = aluLsr .arithmetic (-1) 0 ∧
    aluLsr .logical 2147483647 31 = aluLsr .arithmetic 2147483647 31 ∧
    aluLsr .logical (-1) 31 ≠ aluLsr .arithmetic (-1) 31 := by decide
theorem witness_EorWithOnesIsMvn : (Op2.imm (-1)) ≠ .reg 0 := by decide
theorem witness_LabelIndexIsTheLastDeclaration : programWf [0x0100000000000007, 0, 0x0100000000000007] = true ∧
    labelIndex [0x0100000000000007, 0, 0x0100000000000007] 7 = some 3 := by decide
theorem witness_AssembledLinesDecodeLikeText : loopLines[1]? = some ['B', 'L', 'T', ' ', 'l', 'o', 'o', 'p'] := by decide
theorem witness_AssembledLabelIndexAgrees : loopLines.length ≤ 65535 ∧
    ['l', 'o', 'o', 'p'] ∈ scanNames [] loopLines := by decide
theorem witness_TextMachineAgreesWithBinary : (construct (asm loopLines) false).prog = asm loopLines := rfl

/-- Names that meet the hypotheses: `a`, then digits. -/
theorem witness_CanonicalSpellingDecodes : ∃ (ids : Chars → LabelId) (names : LabelId → Chars),
    (∀ l, ids (names l) = l) ∧ (∀ l, names l ≠ []) ∧ (∀ l, ∀ c ∈ names l, isSpace c = false ∧ c ≠ ':') := by
  refine ⟨fun t => BitVec.ofNat 32 t.tail.length, fun l => 'a' :: List.replicate l.toNat 'b', fun l => ?_, fun l => ?_,
    fun l c hc => ?_⟩
  · simp
  · simp
  · rcases List.mem_cons.mp hc with rfl | hc
    · decide
    · rw [List.eq_of_mem_replicate hc]; decide

end Sys2Proof.Tests
end

section
/-!
SUPPORT. An instruction as the one update it makes. What it reads decides the update, what it writes is the update's
effect, so that "no instruction reads this field" is a statement about `update` and `Update.apply` by themselves.
-/
namespace Sys2Proof.Machine

/-- What an instruction does to the state, its operands evaluated (R206: at most one write beside `pc`). -/
inductive Update where
  | fatal (c : FatalCause)
  | register (d : Reg) (v : Word)
  | store (a : MemIx) (v : Word)
  | compare (f : Flag)
  | jump (t : LineIndex)
  | advance
  | stop

/-- The writes of an update. -/
def Update.apply : Update → State → State
  | .fatal c, s => s.raise c
  | .register d v, s => (s.setReg d v).advance
  | .store a v, s => (s.setMem a v).advance
  | .compare f, s => (s.setFlag f).advance
  | .jump t, s => s.jump t
  | .advance, s => s.advance
  | .stop, s => s.stop

/-- The update of a shift (R127). -/
def State.shiftUpdate (s : State) (f : Word → Nat → Word) (d n : Reg) (o : Op2) : Update :=
  if shiftInRange (s.val o) then .register d (f (s.reg n) (s.val o).toNat) else .fatal .shiftAmountOutOfRange

/-- The update of a branch (R102, R145). -/
def State.branchUpdate (s : State) (o : BrOp) (l : LabelId) : Update :=
  match labelIndex s.prog l with
  | none => .fatal .unknownLabel
  | some t => if branchTaken o s.flag then .jump t else .advance

/-- The update of an instruction: all that it reads of the state. -/
def update (s : State) : Instr → Update
  | .ldr d a => .register d (s.memWord a)
  | .str d a => .store a (s.reg d)
  | .add d n o => .register d (aluAdd (s.reg n) (s.val o))
  | .sub d n o => .register d (aluSub (s.reg n) (s.val o))
  | .and d n o => .register d (aluAnd (s.reg n) (s.val o))
  | .orr d n o => .register d (aluOrr (s.reg n) (s.val o))
  | .eor d n o => .register d (aluEor (s.reg n) (s.val o))
  | .lsl d n o => s.shiftUpdate aluLsl d n o
  | .lsr d n o => s.shiftUpdate (aluLsr Config.lsrMode) d n o
  | .mov d o => .register d (s.val o)
  | .mvn d o => .register d (aluNot (s.val o))
  | .cmp n o => .compare (compareFlag (s.reg n) (s.val o))
  | .b l => s.branchUpdate .b l
  | .beq l => s.branchUpdate .beq l
  | .bne l => s.branchUpdate .bne l
  | .bgt l => s.branchUpdate .bgt l
  | .blt l => s.branchUpdate .blt l
  | .halt => .stop
  | .label _ => .advance
  | .blank => .advance
  | .unk _ => if s.strict then .fatal .unknownMnemonic else .advance
  | .bad => .fatal .malformedOperand

theorem State.shift_eq_apply (s : State) (f : Word → Nat → Word) (d n : Reg) (o : Op2) :
    s.shift f d n o = (s.shiftUpdate f d n o).apply s := by
  unfold State.shift State.shiftUpdate
  split <;> rfl

theorem State.branchTo_eq_apply (s : State) (o : BrOp) (l : LabelId) :
    s.branchTo o l = (s.branchUpdate o l).apply s := by
  unfold State.branchTo State.branch State.branchUpdate
  cases labelIndex s.prog l with
  | none => rfl
  | some t => cases branchTaken o s.flag <;> rfl

/-- An instruction is its update, applied. -/
theorem exec_eq_apply (i : Instr) (s : State) : exec i s = .next ((update s i).apply s) := by
  cases i with
  | lsl d n o => exact congrArg _ (s.shift_eq_apply _ d n o)
  | lsr d n o => exact congrArg _ (s.shift_eq_apply _ d n o)
  | b l => exact congrArg _ (s.branchTo_eq_apply .b l)
  | beq l => exact congrArg _ (s.branchTo_eq_apply .beq l)
  | bne l => exact congrArg _ (s.branchTo_eq_apply .bne l)
  | bgt l => exact congrArg _ (s.branchTo_eq_apply .bgt l)
  | blt l => exact congrArg _ (s.branchTo_eq_apply .blt l)
  | unk op => cases h : s.strict <;> simp [exec, execUnk, update, Update.apply, h]
  | _ => rfl

/-! ## Fields an instruction does not read -/

/-- Running steers no instruction (R16). -/
theorem update_running (s : State) (b : Bool) (i : Instr) : update { s with running := b } i = update s i := by
  cases i <;> rfl

/-- The data memory steers no instruction but LDR (R19). -/
theorem update_mem (s : State) (m : Memory) {i : Instr} (h : ∀ d a, i ≠ .ldr d a) :
    update { s with mem := m } i = update s i := by
  cases i with
  | ldr d a => exact absurd rfl (h d a)
  | _ => rfl

/-- An update either leaves Running or clears it, and treats the rest alike. -/
theorem Update.apply_running (e : Update) (s : State) (b : Bool) :
    { e.apply { s with running := b } with running := (e.apply s).running } = e.apply s := by
  cases e <;> rfl

/-- An update treats all but the data memory alike whatever the memory holds. -/
theorem Update.apply_mem (e : Update) (s : State) (m : Memory) :
    { e.apply { s with mem := m } with mem := (e.apply s).mem } = e.apply s := by
  cases e <;> rfl

end Sys2Proof.Machine
end

section
/-!
SUPPORT. What one edge can have been, said once (R26, R28, R200), and the facts about fetching and Running that the
statements of 10_state.md need.
-/
namespace Sys2Proof.Machine

theorem edge_of_reset {i : Inputs} (s : State) (h : i.rst = true) : edge i s = .next s.resetEdge := by
  simp [edge, h]

/-- What an edge that answers a next state can have been. -/
theorem edge_cases {i : Inputs} {s t : State} (h : edge i s = .next t) :
    (i.rst = true ∧ t = s.resetEdge) ∨
    (i.rst = false ∧ i.stepEn = true ∧ step s = .next t) ∨
    (i.rst = false ∧ i.stepEn = false ∧ i.dbgWe = true ∧ t = s.preload i.dbgSel i.dbgAddr i.dbgWdata) ∨
    (i.rst = false ∧ i.stepEn = false ∧ i.dbgWe = false ∧ t = s) := by
  cases hr : i.rst with
  | true => rw [edge_of_reset s hr] at h; cases h; exact .inl ⟨rfl, rfl⟩
  | false =>
    cases hs : i.stepEn with
    | true => exact .inr (.inl ⟨rfl, rfl, by simpa [edge, hr, hs] using h⟩)
    | false =>
      cases hw : i.dbgWe with
      | true => exact .inr (.inr (.inl ⟨rfl, rfl, rfl, Eq.symm (by simpa [edge, hr, hs, hw] using h)⟩))
      | false => exact .inr (.inr (.inr ⟨rfl, rfl, rfl, Eq.symm (by simpa [edge, hr, hs, hw] using h)⟩))

@[simp] theorem State.resetEdge_running (s : State) : s.resetEdge.running = true := rfl

@[simp] theorem State.preload_running (s : State) (sel : Bool) (addr : BitVec 8) (v : Word) :
    (s.preload sel addr v).running = s.running := by
  cases sel <;> rfl

/-- A state fetches one word. -/
theorem State.Fetches.unique {s : State} {w w' : IWord} (h : s.Fetches w) (h' : s.Fetches w') : w = w' :=
  Option.some.inj (h.line.symm.trans h'.line)

/-- What a state fetches does not depend on the data memory. -/
theorem State.Fetches.withMem {s : State} {w : IWord} (h : s.Fetches w) (m : Memory) :
    State.Fetches { s with mem := m } w :=
  ⟨h.progWf, h.running, h.line⟩

theorem step_of_error {s : State} {w : IWord} {e : DecodeError} (h : s.Fetches w) (hd : decode w = .error e) :
    step s = .next (s.raise (decodeCause e)) := by
  rw [step_of_fetches h, hd]

theorem step_of_ok {s : State} {w : IWord} {i : Instr} (h : s.Fetches w) (hd : decode w = .ok i) :
    step s = exec i s := by
  rw [step_of_fetches h, hd]

/-- The step of a stopped machine changes nothing (R179). -/
theorem eq_of_step_of_stopped {s t : State} (hr : s.running = false) (h : step s = .next t) : t = s := by
  have hp := (step_cases h).1
  rw [step_of_halted hp hr] at h
  cases h; rfl

/-- From a running machine without a fault, an instruction that is not HALT leaves Running and FAULT in step. -/
theorem Effect.running_eq_false_iff {i : Instr} {s t : State} (h : Effect i s t) (hi : i ≠ .halt)
    (hr : s.running = true) (hf : s.fault = none) : t.running = false ↔ t.fault ≠ none := by
  cases h with
  | stop isHalt => exact absurd isHalt hi
  | _ => simp [hr, hf]

/-- The one effect that changes a data word is a store to it. -/
theorem Effect.store_of_memWord_ne {i : Instr} {s t : State} {a : MemIx} (h : Effect i s t)
    (hm : Memory.wf s.mem = true) (hne : t.memWord a ≠ s.memWord a) :
    ∃ d, i = .str d a ∧ t.memWord a = s.reg d := by
  cases h with
  | store d b isStr =>
    rw [State.advance_memWord, State.memWord_setMem hm] at hne ⊢
    have hab : a = b := by by_contra hab; simp [hab] at hne
    subst hab
    exact ⟨d, isStr, if_pos rfl⟩
  | _ => simp at hne

end Sys2Proof.Machine
end

section
/-!
PROOFS. The statements of 10_state.md about the data memory (R19) and Running (R16).
-/
namespace Sys2Proof.Machine

/-! ## The data memory (R19) -/

/-- A step changes a data word only where it executes a STR to it. -/
theorem step_memWord_ne {s t : State} {a : MemIx} (hm : Memory.wf s.mem = true) (h : step s = .next t)
    (hne : t.memWord a ≠ s.memWord a) : ∃ w d, s.Fetches w ∧ decode w = .ok (.str d a) ∧ t.memWord a = s.reg d := by
  obtain ⟨-, ⟨-, rfl⟩ | ⟨-, -, rfl⟩ | ⟨w, e, -, -, rfl⟩ | ⟨w, i, hw, hd, hx⟩⟩ := step_cases h
  · exact absurd rfl hne
  · simp at hne
  · simp at hne
  · obtain ⟨d, rfl, hv⟩ := (exec_effect_of hx).store_of_memWord_ne hm hne
    exact ⟨w, d, hw, hd, hv⟩

/-- The step of a line other than LDR does not read the data memory. -/
theorem step_withMem {s t : State} {w : IWord} (m : Memory) (hw : s.Fetches w)
    (hl : ∀ d a, decode w ≠ .ok (.ldr d a)) (h : step s = .next t) :
    ∃ u, step { s with mem := m } = .next u ∧ { u with mem := t.mem } = t := by
  cases hd : decode w with
  | error e =>
    rw [step_of_error hw hd] at h
    cases h
    exact ⟨_, step_of_error (hw.withMem m) hd, rfl⟩
  | ok i =>
    have hi : ∀ d a, i ≠ .ldr d a := fun d a hc => hl d a (hc ▸ hd)
    rw [step_of_ok hw hd, exec_eq_apply] at h
    cases h
    refine ⟨_, (step_of_ok (hw.withMem m) hd).trans (exec_eq_apply _ _), ?_⟩
    rw [update_mem s m hi]
    exact Update.apply_mem _ s m

/-! ## Running (R16) -/

/-- A step clears Running exactly by HALT or a fatal condition. -/
theorem step_running_eq_false_iff {s t : State} (hr : s.running = true) (hf : s.fault = none)
    (h : step s = .next t) :
    t.running = false ↔ (∃ w, s.Fetches w ∧ decode w = .ok .halt) ∨ t.fault ≠ none := by
  obtain ⟨-, ⟨hs, -⟩ | ⟨-, -, rfl⟩ | ⟨w, e, -, -, rfl⟩ | ⟨w, i, hw, hd, hx⟩⟩ := step_cases h
  · rw [hr] at hs; cases hs
  · simp
  · simp
  · by_cases hi : i = .halt
    · subst hi
      cases hx
      exact iff_of_true rfl (.inl ⟨w, hw, hd⟩)
    · have hnot : ¬ ∃ w, s.Fetches w ∧ decode w = .ok .halt := by
        rintro ⟨w', hw', hd'⟩
        rw [← hw.unique hw', hd] at hd'
        cases hd'; exact hi rfl
      rw [(exec_effect_of hx).running_eq_false_iff hi hr hf, or_iff_right hnot]

/-- No edge but a reset sets Running. -/
theorem edge_running_eq_false {i : Inputs} {s t : State} (hi : i.rst = false) (hr : s.running = false)
    (h : edge i s = .next t) : t.running = false := by
  obtain ⟨hc, -⟩ | ⟨-, -, hstep⟩ | ⟨-, -, -, rfl⟩ | ⟨-, -, -, rfl⟩ := edge_cases h
  · rw [hi] at hc; cases hc
  · rw [eq_of_step_of_stopped hr hstep]; exact hr
  · rw [State.preload_running]; exact hr
  · exact hr

/-- No instruction reads Running. -/
theorem exec_withRunning {i : Instr} {s t : State} (b : Bool) (h : exec i s = .next t) :
    ∃ u, exec i { s with running := b } = .next u ∧ { u with running := t.running } = t := by
  rw [exec_eq_apply] at h
  cases h
  refine ⟨_, exec_eq_apply _ _, ?_⟩
  rw [update_running]
  exact Update.apply_running _ s b

end Sys2Proof.Machine
end

section
open Sys2Proof.Machine

/-- Settles O21: the writer is read off `Effect`, the readers off `update`. -/
theorem dataMemoryStoredByStrLoadedByLdr : Obligations.DataMemoryStoredByStrLoadedByLdr :=
  ⟨State.reset_memWord, fun _ _ _ => step_memWord_ne, fun _ _ _ m => step_withMem m⟩

/-- Settles O24: each clause is one lemma, about a reset, a step, an edge and an instruction. -/
theorem runningClearedByHaltAndFatalOnly : Obligations.RunningClearedByHaltAndFatalOnly :=
  ⟨fun _ s hi => ⟨s.resetEdge, edge_of_reset s hi, s.resetEdge_running⟩,
    fun _ _ => step_running_eq_false_iff, fun _ _ _ => edge_running_eq_false, fun _ _ _ b => exec_withRunning b⟩
end

section
/-!
SUPPORT. Operand 2 steers an instruction by its value alone (R104).
-/
namespace Sys2Proof

/-- The instruction with another operand 2; an instruction without one is left as it is. -/
def Instr.withOp2 (o : Op2) : Instr → Instr
  | .add d n _ => .add d n o
  | .sub d n _ => .sub d n o
  | .and d n _ => .and d n o
  | .orr d n _ => .orr d n o
  | .eor d n _ => .eor d n o
  | .lsl d n _ => .lsl d n o
  | .lsr d n _ => .lsr d n o
  | .mov d _ => .mov d o
  | .mvn d _ => .mvn d o
  | .cmp n _ => .cmp n o
  | i => i

end Sys2Proof

namespace Sys2Proof.Machine

/-- A shift reads the value of its operand 2 and not its form. -/
theorem State.shiftUpdate_congr {s : State} {o o' : Op2} (h : s.val o = s.val o') (f : Word → Nat → Word)
    (d n : Reg) : s.shiftUpdate f d n o = s.shiftUpdate f d n o' := by
  simp only [State.shiftUpdate, h]

/-- The update of an instruction reads the value of operand 2 and not its form. -/
theorem update_withOp2_congr {s : State} {o o' : Op2} (h : s.val o = s.val o') (i : Instr) :
    update s (i.withOp2 o) = update s (i.withOp2 o') := by
  cases i with
  | add | sub | and | orr | eor => simp only [Instr.withOp2, update, h]
  | lsl d n => exact State.shiftUpdate_congr h _ d n
  | lsr d n => exact State.shiftUpdate_congr h _ d n
  | mov | mvn | cmp => simp only [Instr.withOp2, update, h]
  | _ => rfl

/-- Operands 2 of one value are interchangeable in every instruction. -/
theorem exec_withOp2_congr {s : State} {o o' : Op2} (h : s.val o = s.val o') (i : Instr) :
    exec (i.withOp2 o) s = exec (i.withOp2 o') s := by
  rw [exec_eq_apply, exec_eq_apply, update_withOp2_congr h]

end Sys2Proof.Machine
end

section
open Sys2Proof.Machine

/-- Settles O49: an immediate and a register of equal value are two operands of one value, so `exec_withOp2_congr`
exchanges them in each of the ten instructions. -/
theorem operandFormsAgree : Obligations.OperandFormsAgree := by
  intro s v m d n
  refine ⟨s.val_imm v, s.val_reg m, fun h => ?_⟩
  have hval : s.val (.imm v) = s.val (.reg m) := by rw [State.val_imm, State.val_reg, h]
  have same := exec_withOp2_congr hval
  exact ⟨same (.add d n (.imm v)), same (.sub d n (.imm v)), same (.and d n (.imm v)), same (.orr d n (.imm v)),
    same (.eor d n (.imm v)), same (.lsl d n (.imm v)), same (.lsr d n (.imm v)), same (.mov d (.imm v)),
    same (.mvn d (.imm v)), same (.cmp n (.imm v))⟩
end

section
/-!
SUPPORT. A branch to a label with an entry is one write of `pc` (R105), and the pseudocode's conditions are the table of
R146.
-/
namespace Sys2Proof.Machine
open Sys2Proof.Claims

/-- The conditions of R140 to R144 are the entries of the table of R146. -/
theorem branchTaken_eq_takenTable (o : BrOp) (f : Flag) : branchTaken o f = takenTable f o := by
  cases o <;> cases f <;> rfl

/-- The five branches are one operation, steered by the kind of branch. -/
theorem exec_brInstr (o : BrOp) (l : LabelId) (s : State) : exec (o.instr l) s = .next (s.branchTo o l) := by
  cases o <;> rfl

/-- Where the label has an entry, a branch jumps: to the entry when taken, to `pc + 1` when not. -/
theorem State.branchTo_of_labelIndex_eq_some {s : State} {l : LabelId} {target : LineIndex}
    (h : labelIndex s.prog l = some target) (o : BrOp) :
    s.branchTo o l = s.jump (if branchTaken o s.flag then target else s.pc + 1) := by
  unfold State.branchTo
  rw [h]
  cases branchTaken o s.flag with
  | true => rfl
  | false => rfl

/-- A jump writes `pc` and nothing else. -/
theorem State.jump_pcResult (s : State) (p : LineIndex) : PcResult s (s.jump p) p where
  pc := s.jump_pc p
  regs := s.jump_reg p
  mem := s.jump_memWord p
  flag := s.jump_flag p
  running := s.jump_running p
  fault := s.jump_fault p
  prog := s.jump_prog p
  strict := s.jump_strict p

end Sys2Proof.Machine
end

section
open Sys2Proof.Machine

/-- Settles O43: with an entry for its label each of the five branches is a jump, and the jump's target is chosen by the
table. -/
theorem branchDecisionTable : Obligations.BranchDecisionTable := by
  intro o l s target h
  refine ⟨s.branchTo o l, exec_brInstr o l s, ?_⟩
  rw [State.branchTo_of_labelIndex_eq_some h, branchTaken_eq_takenTable]
  exact s.jump_pcResult _
end

section
/-!
SUPPORT. The decoder read backwards: which words decode to which line, one case per format of R76 and per row of R77.
-/
namespace Sys2Proof

/-! ## The opcode map (R77) -/

/-- The opcodes of a row of R77. -/
def LineKind.has : LineKind → BitVec 8 → Bool
  | .blank, op => op == 0x00
  | .label, op => op == 0x01
  | .insn m, op => op == m.opcode
  | .unk, op => reservedOpcode op
  | .bad, op => op == 0xFF

/-- An opcode belongs to the row that `lineKind` selects. -/
theorem lineKind_has (op : BitVec 8) : (lineKind op).has op = true := by
  revert op; decide

theorem eq_opcode_of_lineKind {op : BitVec 8} {m : Mnemonic} (h : lineKind op = .insn m) : op = m.opcode := by
  simpa [LineKind.has, h] using lineKind_has op

/-! ## Range checks read backwards (R78, R80) -/

theorem eq_regField_of_regOf {f : BitVec 8} {r : Reg} (h : regOf f.toNat = some r) : f = regField r :=
  BitVec.eq_of_toNat_eq ((regOf_eq_some.mp h).trans (regField_toNat r).symm)

theorem eq_memPayload_of_memIxOf {p : BitVec 32} {a : MemIx} (h : memIxOf p.toNat = some a) :
    p = BitVec.ofNat 32 a.val :=
  BitVec.eq_of_toNat_eq ((memIxOf_eq_some.mp h).trans (memPayload_toNat a).symm)

theorem op2Of_zero (p : BitVec 32) : op2Of 0 p = some (.imm p) := rfl

theorem op2Of_one (p : BitVec 32) : op2Of 1 p = (regOf p.toNat).map .reg := rfl

/-- `k` below 2 is 0 or 1 (R79). -/
theorem kind_cases {k : BitVec 8} (h : ¬ 2 ≤ k.toNat) : k = 0 ∨ k = 1 := by
  have : k.toNat = 0 ∨ k.toNat = 1 := by omega
  exact this.imp (BitVec.eq_of_toNat_eq ·) (BitVec.eq_of_toNat_eq ·)

/-- An accepted operand 2 is the one its `k` and payload were written for. -/
theorem eq_k_p_of_op2Of {k : BitVec 8} {p : BitVec 32} {v : Op2} (hk : ¬ 2 ≤ k.toNat)
    (h : op2Of k p = some v) : k = v.k ∧ p = v.p := by
  obtain rfl | rfl := kind_cases hk
  · rw [op2Of_zero] at h
    cases h; exact ⟨rfl, rfl⟩
  · rw [op2Of_one, Option.map_eq_some_iff] at h
    obtain ⟨m, hm, rfl⟩ := h
    exact ⟨rfl, BitVec.eq_of_toNat_eq ((regOf_eq_some.mp hm).trans (regPayload_toNat m).symm)⟩

/-- Operand 2 is out of range only as a register (R78, R80). -/
theorem op2Of_eq_none {k : BitVec 8} {p : BitVec 32} (hk : ¬ 2 ≤ k.toNat) :
    op2Of k p = none ↔ k = 1 ∧ 16 ≤ p.toNat := by
  obtain rfl | rfl := kind_cases hk
  · rw [op2Of_zero]; simp
  · rw [op2Of_one, Option.map_eq_none_iff, regOf_eq_none]; simp

/-! ## What decodes (R84) -/

/-- The words that decode to a line, by format: one word of each mnemonic line, any word of the opcode for
the others. -/
inductive Decodes : IWord → Instr → Prop where
  | mem (o : MemOp) (d : Reg) (a : MemIx) : Decodes (encMem o d a) (o.instr d a)
  | alu3 (o : Alu3Op) (d n : Reg) (v : Op2) : Decodes (encAlu3 o d n v) (o.instr d n v)
  | alu2 (o : Alu2Op) (d : Reg) (v : Op2) : Decodes (encAlu2 o d v) (o.instr d v)
  | cmp (n : Reg) (v : Op2) : Decodes (encCmp n v) (.cmp n v)
  | br (o : BrOp) (l : LabelId) : Decodes (encBr o l) (o.instr l)
  | halt : Decodes (encode .halt) .halt
  | label (w : IWord) (op : opField w = 0x01) : Decodes w (.label (pField w))
  | blank (w : IWord) (op : opField w = 0x00) : Decodes w .blank
  | unk (w : IWord) (op : reservedOpcode (opField w) = true) : Decodes w (.unk (opField w))
  | bad (w : IWord) (op : opField w = 0xFF) : Decodes w .bad

theorem eq_of_decodeMem {o : MemOp} {rd rn k : BitVec 8} {p : BitVec 32} {i : Instr}
    (h : decodeMem o rd rn k p = .ok i) :
    ∃ d a, i = o.instr d a ∧ mkWord (Mnemonic.mem o).opcode rd rn k p = encMem o d a := by
  unfold decodeMem at h
  split at h
  · cases h
  · rename_i hz
    split at h
    · rename_i d a hd ha
      cases h
      have hz : rn = 0 ∧ k = 0 := by simpa using hz
      rw [hz.1, hz.2, eq_regField_of_regOf hd, eq_memPayload_of_memIxOf ha]
      exact ⟨d, a, rfl, rfl⟩
    · cases h

theorem eq_of_decodeAlu3 {o : Alu3Op} {rd rn k : BitVec 8} {p : BitVec 32} {i : Instr}
    (h : decodeAlu3 o rd rn k p = .ok i) :
    ∃ d n v, i = o.instr d n v ∧ mkWord (Mnemonic.alu3 o).opcode rd rn k p = encAlu3 o d n v := by
  unfold decodeAlu3 at h
  split at h
  · cases h
  · rename_i hk
    split at h
    · rename_i d n v hd hn hv
      cases h
      obtain ⟨rfl, rfl⟩ := eq_k_p_of_op2Of hk hv
      rw [eq_regField_of_regOf hd, eq_regField_of_regOf hn]
      exact ⟨d, n, v, rfl, rfl⟩
    · cases h

theorem eq_of_decodeAlu2 {o : Alu2Op} {rd rn k : BitVec 8} {p : BitVec 32} {i : Instr}
    (h : decodeAlu2 o rd rn k p = .ok i) :
    ∃ d v, i = o.instr d v ∧ mkWord (Mnemonic.alu2 o).opcode rd rn k p = encAlu2 o d v := by
  unfold decodeAlu2 at h
  split at h
  · cases h
  · rename_i hz
    obtain ⟨hn, hk⟩ := not_or.mp hz
    split at h
    · rename_i d v hd hv
      cases h
      obtain ⟨rfl, rfl⟩ := eq_k_p_of_op2Of hk hv
      rw [not_not.mp hn, eq_regField_of_regOf hd]
      exact ⟨d, v, rfl, rfl⟩
    · cases h

theorem eq_of_decodeCmp {rd rn k : BitVec 8} {p : BitVec 32} {i : Instr} (h : decodeCmp rd rn k p = .ok i) :
    ∃ n v, i = .cmp n v ∧ mkWord Mnemonic.cmp.opcode rd rn k p = encCmp n v := by
  unfold decodeCmp at h
  split at h
  · cases h
  · rename_i hz
    obtain ⟨hd, hk⟩ := not_or.mp hz
    split at h
    · rename_i n v hn hv
      cases h
      obtain ⟨rfl, rfl⟩ := eq_k_p_of_op2Of hk hv
      rw [not_not.mp hd, eq_regField_of_regOf hn]
      exact ⟨n, v, rfl, rfl⟩
    · cases h

theorem eq_of_decodeBr {o : BrOp} {rd rn k : BitVec 8} {p : BitVec 32} {i : Instr}
    (h : decodeBr o rd rn k p = .ok i) : i = o.instr p ∧ mkWord (Mnemonic.br o).opcode rd rn k p = encBr o p := by
  unfold decodeBr at h
  split at h
  · cases h
  · rename_i hz
    cases h
    have hz : rd = 0 ∧ rn = 0 ∧ k = 0 := by simpa using hz
    obtain ⟨rfl, rfl, rfl⟩ := hz
    exact ⟨rfl, rfl⟩

theorem eq_of_decodeHalt {rd rn k : BitVec 8} {p : BitVec 32} {i : Instr} (h : decodeHalt rd rn k p = .ok i) :
    i = .halt ∧ mkWord Mnemonic.halt.opcode rd rn k p = encode .halt := by
  unfold decodeHalt at h
  split at h
  · cases h
  · rename_i hz
    cases h
    have hz : rd = 0 ∧ rn = 0 ∧ k = 0 ∧ p = 0 := by simpa using hz
    obtain ⟨rfl, rfl, rfl, rfl⟩ := hz
    exact ⟨rfl, rfl⟩

/-- A word with its opcode written as the mnemonic it selects. -/
theorem mkWord_opcode_fields {w : IWord} {m : Mnemonic} (h : lineKind (opField w) = .insn m) :
    mkWord m.opcode (rdField w) (rnField w) (kField w) (pField w) = w := by
  rw [← eq_opcode_of_lineKind h, mkWord_fields]

/-- The decoder read backwards. -/
theorem Decodes.of_decode {w : IWord} {i : Instr} (h : decode w = .ok i) : Decodes w i := by
  have hhas := lineKind_has (opField w)
  unfold decode decodeFields at h
  split at h
  next hk => rw [hk] at hhas; cases h; exact .blank w (beq_iff_eq.mp hhas)
  next hk => rw [hk] at hhas; cases h; exact .label w (beq_iff_eq.mp hhas)
  next hk => rw [hk] at hhas; cases h; exact .bad w (beq_iff_eq.mp hhas)
  next hk => rw [hk] at hhas; cases h; exact .unk w hhas
  next o hk =>
    obtain ⟨d, a, rfl, hw⟩ := eq_of_decodeMem h
    rw [← mkWord_opcode_fields hk, hw]; exact .mem o d a
  next o hk =>
    obtain ⟨d, n, v, rfl, hw⟩ := eq_of_decodeAlu3 h
    rw [← mkWord_opcode_fields hk, hw]; exact .alu3 o d n v
  next o hk =>
    obtain ⟨d, v, rfl, hw⟩ := eq_of_decodeAlu2 h
    rw [← mkWord_opcode_fields hk, hw]; exact .alu2 o d v
  next hk =>
    obtain ⟨n, v, rfl, hw⟩ := eq_of_decodeCmp h
    rw [← mkWord_opcode_fields hk, hw]; exact .cmp n v
  next o hk =>
    obtain ⟨rfl, hw⟩ := eq_of_decodeBr h
    rw [mkWord_opcode_fields hk] at hw
    have hbr := Decodes.br o (pField w)
    rwa [← hw] at hbr
  next hk =>
    obtain ⟨rfl, hw⟩ := eq_of_decodeHalt h
    rw [← mkWord_opcode_fields hk, hw]; exact .halt

/-! ## The decoder by opcode (R77) -/

theorem decode_of_blank {w : IWord} (h : opField w = 0x00) : decode w = .ok .blank := by
  rw [decode, h]; rfl

theorem decode_of_label {w : IWord} (h : opField w = 0x01) : decode w = .ok (.label (pField w)) := by
  rw [decode, h]; rfl

theorem decode_of_reserved {w : IWord} (h : reservedOpcode (opField w) = true) : decode w = .ok (.unk (opField w)) := by
  rw [decode, decodeFields, lineKind_reserved h]

theorem decode_of_bad {w : IWord} (h : opField w = 0xFF) : decode w = .ok .bad := by
  rw [decode, h]; rfl

/-- What decodes, exactly. -/
theorem decode_eq_ok_iff {w : IWord} {i : Instr} : decode w = .ok i ↔ Decodes w i := by
  refine ⟨Decodes.of_decode, fun h => ?_⟩
  cases h with
  | mem o d a => exact decode_encMem o d a
  | alu3 o d n v => exact decode_encAlu3 o d n v
  | alu2 o d v => exact decode_encAlu2 o d v
  | cmp n v => exact decode_encCmp n v
  | br o l => exact decode_encBr o l
  | halt => exact Laws.RoundTrip.halt rfl
  | label _ op => exact decode_of_label op
  | blank _ op => exact decode_of_blank op
  | unk _ op => exact decode_of_reserved op
  | bad _ op => exact decode_of_bad op

/-! ## Encoding, opcode and well-formedness of what decodes -/

theorem encode_memInstr (o : MemOp) (d : Reg) (a : MemIx) : encode (o.instr d a) = encMem o d a := by
  cases o <;> rfl

theorem encode_alu3Instr (o : Alu3Op) (d n : Reg) (v : Op2) : encode (o.instr d n v) = encAlu3 o d n v := by
  cases o <;> rfl

theorem encode_alu2Instr (o : Alu2Op) (d : Reg) (v : Op2) : encode (o.instr d v) = encAlu2 o d v := by
  cases o <;> rfl

theorem encode_brInstr (o : BrOp) (l : LabelId) : encode (o.instr l) = encBr o l := by
  cases o <;> rfl

/-- Everything that decodes is well-formed (R81). -/
theorem Decodes.wf {w : IWord} {i : Instr} (h : Decodes w i) : i.wf = true := by
  cases h with
  | mem o => cases o <;> rfl
  | alu3 o => cases o <;> rfl
  | alu2 o => cases o <;> rfl
  | br o => cases o <;> rfl
  | unk _ op => exact op
  | _ => rfl

/-- A word has the opcode of the line it decodes to. -/
theorem Decodes.opField_eq {w : IWord} {i : Instr} (h : Decodes w i) : opField w = opField (encode i) := by
  cases h with
  | mem o d a => rw [encode_memInstr]
  | alu3 o d n v => rw [encode_alu3Instr]
  | alu2 o d v => rw [encode_alu2Instr]
  | cmp => rfl
  | br o l => rw [encode_brInstr]
  | halt => rfl
  | label _ op => simpa [encode] using op
  | blank _ op => simpa [encode] using op
  | unk _ op => simp [encode]
  | bad _ op => simpa [encode] using op

/-- A line of a mnemonic has one word: outside the 18 opcodes the other bits are ignored. -/
theorem Decodes.encode_eq {w : IWord} {i : Instr} (h : Decodes w i) (hlo : 0x02 ≤ (opField w).toNat)
    (hhi : (opField w).toNat ≤ 0x13) : encode i = w := by
  cases h with
  | mem o d a => exact encode_memInstr o d a
  | alu3 o d n v => exact encode_alu3Instr o d n v
  | alu2 o d v => exact encode_alu2Instr o d v
  | cmp => rfl
  | br o l => exact encode_brInstr o l
  | halt => rfl
  | label _ op => simp [op] at hlo
  | blank _ op => simp [op] at hlo
  | unk _ op =>
    simp only [reservedOpcode, Bool.and_eq_true, decide_eq_true_eq] at op
    omega
  | bad _ op => simp [op] at hhi

end Sys2Proof
end

section
open Sys2Proof

/-- Settles O1: one round trip per constructor. -/
theorem decodeOfEncodeIsTheInstruction : Obligations.DecodeOfEncodeIsTheInstruction := by
  intro i
  cases i with
  | ldr d a => exact Laws.RoundTrip.ldr d a
  | str d a => exact Laws.RoundTrip.str d a
  | add d n o => exact Laws.RoundTrip.add d n o
  | sub d n o => exact Laws.RoundTrip.sub d n o
  | and d n o => exact Laws.RoundTrip.and d n o
  | orr d n o => exact Laws.RoundTrip.orr d n o
  | eor d n o => exact Laws.RoundTrip.eor d n o
  | lsl d n o => exact Laws.RoundTrip.lsl d n o
  | lsr d n o => exact Laws.RoundTrip.lsr d n o
  | mov d o => exact Laws.RoundTrip.mov d o
  | mvn d o => exact Laws.RoundTrip.mvn d o
  | cmp n o => exact Laws.RoundTrip.cmp n o
  | b l => exact Laws.RoundTrip.b l
  | beq l => exact Laws.RoundTrip.beq l
  | bne l => exact Laws.RoundTrip.bne l
  | bgt l => exact Laws.RoundTrip.bgt l
  | blt l => exact Laws.RoundTrip.blt l
  | halt => exact Laws.RoundTrip.halt
  | label l => exact Laws.RoundTrip.label l
  | blank => exact Laws.RoundTrip.blank
  | unk op => exact Laws.RoundTrip.unk op
  | bad => exact Laws.RoundTrip.bad

/-- Settles O2: the decoder read backwards gives the encoder's word. -/
theorem noInstructionHasTwoWords : Obligations.NoInstructionHasTwoWords := by
  intro w i h
  have hw := Decodes.of_decode h
  exact ⟨hw.wf, fun ⟨hlo, hhi⟩ => hw.encode_eq hlo hhi⟩
end

section
/-!
SUPPORT. The answer of the decoder to a word, in the terms of R79 and R80: malformed, an index out of range, or a line.
-/
namespace Sys2Proof
open Sys2Proof.Claims

/-- The three answers of R84: malformed first, then a too big index, else a line. -/
inductive Verdict (malformed tooBig : Prop) : Decoded → Prop where
  | malformed (bad : malformed) : Verdict malformed tooBig (.error .malformedOperand)
  | index (good : ¬ malformed) (big : tooBig) : Verdict malformed tooBig (.error .indexOutOfRange)
  | ok (i : Instr) (good : ¬ malformed) (small : ¬ tooBig) : Verdict malformed tooBig (.ok i)

theorem Verdict.congr {m m' t t' : Prop} {r : Decoded} (h : Verdict m t r) (hm : m ↔ m') (ht : t ↔ t') :
    Verdict m' t' r := by
  obtain rfl := propext hm
  obtain rfl := propext ht
  exact h

section
variable {m t : Prop} {r : Decoded}

theorem Verdict.malformed_iff (h : Verdict m t r) : r = .error .malformedOperand ↔ m := by
  cases h with
  | malformed bad => exact iff_of_true rfl bad
  | index good => exact iff_of_false (by simp) good
  | ok _ good => exact iff_of_false (by simp) good

theorem Verdict.index_iff (h : Verdict m t r) : r = .error .indexOutOfRange ↔ ¬ m ∧ t := by
  cases h with
  | malformed bad => exact iff_of_false (by simp) fun hc => hc.1 bad
  | index good big => exact iff_of_true rfl ⟨good, big⟩
  | ok _ good small => exact iff_of_false (by simp) fun hc => small hc.2

end

/-! ## The verdict of each format (R76, R84) -/

theorem decodeMem_verdict (o : MemOp) (rd rn k : BitVec 8) (p : BitVec 32) :
    Verdict (rn ≠ 0 ∨ k ≠ 0) (16 ≤ rd.toNat ∨ 256 ≤ p.toNat) (decodeMem o rd rn k p) := by
  unfold decodeMem
  split
  · exact .malformed ‹_›
  · cases hd : regOf rd.toNat with
    | none => exact .index ‹_› (.inl (regOf_eq_none.mp hd))
    | some d =>
      cases ha : memIxOf p.toNat with
      | none => exact .index ‹_› (.inr (memIxOf_eq_none.mp ha))
      | some a =>
        refine .ok _ ‹_› ?_
        rw [← regOf_eq_none, ← memIxOf_eq_none, hd, ha]; simp

theorem decodeAlu3_verdict (o : Alu3Op) (rd rn k : BitVec 8) (p : BitVec 32) :
    Verdict (2 ≤ k.toNat) (16 ≤ rd.toNat ∨ 16 ≤ rn.toNat ∨ (k = 1 ∧ 16 ≤ p.toNat)) (decodeAlu3 o rd rn k p) := by
  unfold decodeAlu3
  split
  · exact .malformed ‹_›
  · rename_i hk
    rw [← regOf_eq_none, ← regOf_eq_none, ← op2Of_eq_none hk]
    cases regOf rd.toNat with
    | none => exact .index hk (.inl rfl)
    | some d =>
      cases regOf rn.toNat with
      | none => exact .index hk (.inr (.inl rfl))
      | some n =>
        cases op2Of k p with
        | none => exact .index hk (.inr (.inr rfl))
        | some v => exact .ok _ hk (by simp)

theorem decodeAlu2_verdict (o : Alu2Op) (rd rn k : BitVec 8) (p : BitVec 32) :
    Verdict (rn ≠ 0 ∨ 2 ≤ k.toNat) (16 ≤ rd.toNat ∨ (k = 1 ∧ 16 ≤ p.toNat)) (decodeAlu2 o rd rn k p) := by
  unfold decodeAlu2
  split
  · exact .malformed ‹_›
  · rename_i hz
    rw [← regOf_eq_none, ← op2Of_eq_none (not_or.mp hz).2]
    cases regOf rd.toNat with
    | none => exact .index hz (.inl rfl)
    | some d =>
      cases op2Of k p with
      | none => exact .index hz (.inr rfl)
      | some v => exact .ok _ hz (by simp)

theorem decodeCmp_verdict (rd rn k : BitVec 8) (p : BitVec 32) :
    Verdict (rd ≠ 0 ∨ 2 ≤ k.toNat) (16 ≤ rn.toNat ∨ (k = 1 ∧ 16 ≤ p.toNat)) (decodeCmp rd rn k p) := by
  unfold decodeCmp
  split
  · exact .malformed ‹_›
  · rename_i hz
    rw [← regOf_eq_none, ← op2Of_eq_none (not_or.mp hz).2]
    cases regOf rn.toNat with
    | none => exact .index hz (.inl rfl)
    | some d =>
      cases op2Of k p with
      | none => exact .index hz (.inr rfl)
      | some v => exact .ok _ hz (by simp)

theorem decodeBr_verdict (o : BrOp) (rd rn k : BitVec 8) (p : BitVec 32) :
    Verdict (rd ≠ 0 ∨ rn ≠ 0 ∨ k ≠ 0) False (decodeBr o rd rn k p) := by
  unfold decodeBr
  split
  · exact .malformed ‹_›
  · exact .ok _ ‹_› not_false

theorem decodeHalt_verdict (rd rn k : BitVec 8) (p : BitVec 32) :
    Verdict (rd ≠ 0 ∨ rn ≠ 0 ∨ k ≠ 0 ∨ p ≠ 0) False (decodeHalt rd rn k p) := by
  unfold decodeHalt
  split
  · exact .malformed ‹_›
  · exact .ok _ ‹_› not_false

/-! ## The rules of R79 and R80, format by format -/

section
variable {w : IWord}

theorem opField_mem {o : MemOp} (h : lineKind (opField w) = .insn (.mem o)) :
    (opField w).toNat = 0x02 ∨ (opField w).toNat = 0x03 := by
  rw [eq_opcode_of_lineKind h]; cases o <;> decide

theorem opField_alu3 {o : Alu3Op} (h : lineKind (opField w) = .insn (.alu3 o)) :
    0x04 ≤ (opField w).toNat ∧ (opField w).toNat ≤ 0x0A := by
  rw [eq_opcode_of_lineKind h]; cases o <;> decide

theorem opField_alu2 {o : Alu2Op} (h : lineKind (opField w) = .insn (.alu2 o)) :
    (opField w).toNat = 0x0B ∨ (opField w).toNat = 0x0C := by
  rw [eq_opcode_of_lineKind h]; cases o <;> decide

theorem opField_cmp (h : lineKind (opField w) = .insn .cmp) : (opField w).toNat = 0x0D := by
  rw [eq_opcode_of_lineKind h]; decide

theorem opField_br {o : BrOp} (h : lineKind (opField w) = .insn (.br o)) :
    0x0E ≤ (opField w).toNat ∧ (opField w).toNat ≤ 0x12 := by
  rw [eq_opcode_of_lineKind h]; cases o <;> decide

theorem opField_halt (h : lineKind (opField w) = .insn .halt) : (opField w).toNat = 0x13 := by
  rw [eq_opcode_of_lineKind h]; decide

/-- A word of no mnemonic opcode breaks neither rule. -/
theorem Verdict.of_not_mnemonic (i : Instr) (h : ¬ isMnemonic w) :
    Verdict (mustBeZeroViolated w) (indexTooBig w) (.ok i) := by
  simp only [isMnemonic, mustBeZeroViolated, indexTooBig, isMem, isAlu3, isAlu2, isCmp, isBr, isHalt] at *
  exact .ok i (by omega) (by omega)

end

/-- The decoder's answer to a word is the verdict of the rules R79 and R80: its opcode leaves the clauses of one
format. -/
theorem decode_verdict (w : IWord) : Verdict (mustBeZeroViolated w) (indexTooBig w) (decode w) := by
  have hhas := lineKind_has (opField w)
  unfold decode decodeFields
  split
  next hk => rw [hk] at hhas; exact .of_not_mnemonic _ (by rw [isMnemonic, beq_iff_eq.mp hhas]; decide)
  next hk => rw [hk] at hhas; exact .of_not_mnemonic _ (by rw [isMnemonic, beq_iff_eq.mp hhas]; decide)
  next hk => rw [hk] at hhas; exact .of_not_mnemonic _ (by rw [isMnemonic, beq_iff_eq.mp hhas]; decide)
  next hk =>
    rw [hk] at hhas
    simp only [LineKind.has, reservedOpcode, Bool.and_eq_true, decide_eq_true_eq] at hhas
    exact .of_not_mnemonic _ (by rw [isMnemonic]; omega)
  all_goals simp only [mustBeZeroViolated, indexTooBig, isMem, isAlu3, isAlu2, isCmp, isBr, isHalt]
  next o hk =>
    have hop := opField_mem hk
    exact (decodeMem_verdict o _ _ _ _).congr (by grind) (by grind)
  next o hk =>
    have hop := opField_alu3 hk
    exact (decodeAlu3_verdict o _ _ _ _).congr (by grind) (by grind)
  next o hk =>
    have hop := opField_alu2 hk
    exact (decodeAlu2_verdict o _ _ _ _).congr (by grind) (by grind)
  next hk =>
    have hop := opField_cmp hk
    exact (decodeCmp_verdict _ _ _ _).congr (by grind) (by grind)
  next o hk =>
    have hop := opField_br hk
    exact (decodeBr_verdict o _ _ _ _).congr (by grind) (by grind)
  next hk =>
    have hop := opField_halt hk
    exact (decodeHalt_verdict _ _ _ _).congr (by grind) (by grind)

/-- Opcode 0xFF, and no other, is the line BAD (R82, log 7). -/
theorem decode_eq_bad_iff (w : IWord) : decode w = .ok .bad ↔ (opField w).toNat = 0xFF := by
  constructor
  · intro h
    rw [(Decodes.of_decode h).opField_eq]; decide
  · exact fun h => decode_of_bad (BitVec.eq_of_toNat_eq h)

end Sys2Proof
end

section
/-!
SUPPORT. Each operation of the state gives the result its claim describes, frame included: said once here, cited by
every instruction.
-/
namespace Sys2Proof.Machine
open Sys2Proof.Claims

/-- A register write and an advance (R103, R105). -/
theorem State.setReg_advance_regResult (s : State) (d : Reg) (v : Word) :
    RegResult s (s.setReg d v).advance d v where
  dest := s.reg_setReg_same d v
  otherRegs _ h := s.reg_setReg_ne v h
  mem _ := rfl
  flag := rfl
  pc := rfl
  running := rfl
  fault := rfl
  prog := rfl
  strict := rfl

/-- A store and an advance. -/
theorem State.setMem_advance_memResult {s : State} (h : Memory.wf s.mem = true) (a : MemIx) (v : Word) :
    MemResult s (s.setMem a v).advance a v where
  stored := by rw [State.advance_memWord, State.memWord_setMem h, if_pos rfl]
  otherWords b hb := by rw [State.advance_memWord, State.memWord_setMem h, if_neg hb]
  regs _ := rfl
  flag := rfl
  pc := rfl
  running := rfl
  fault := rfl
  prog := rfl
  strict := rfl

/-- A write of the flag and an advance. -/
theorem State.setFlag_advance_flagResult (s : State) (f : Flag) : FlagResult s (s.setFlag f).advance f where
  flag := rfl
  regs _ := rfl
  mem _ := rfl
  pc := rfl
  running := rfl
  fault := rfl
  prog := rfl
  strict := rfl

/-- An advance is the jump to the next line. -/
theorem State.advance_pcResult (s : State) : PcResult s s.advance (s.pc + 1) := s.jump_pcResult (s.pc + 1)

/-- HALT's stop keeps FAULT (R150). -/
theorem State.stop_stopResult (s : State) : StopResult s s.stop s.fault where
  running := rfl
  fault := rfl
  regs _ := rfl
  mem _ := rfl
  flag := rfl
  pc := rfl
  prog := rfl
  strict := rfl

/-- `raise` is the fatal outcome of R176. -/
theorem State.raise_fatalResult (s : State) (c : FatalCause) : FatalResult s (s.raise c) c where
  running := rfl
  fault := rfl
  regs _ := rfl
  mem _ := rfl
  flag := rfl
  pc := rfl
  prog := rfl
  strict := rfl

theorem fatalStep_of_raise {s : State} {c : FatalCause} (h : step s = .next (s.raise c)) : FatalStep s c :=
  ⟨s.raise c, h, s.raise_fatalResult c⟩

/-! ## Operand 2, shifts and branches -/

/-- Operand 2 is read past a write to another register. -/
theorem State.val_setReg_of_ne {s : State} {d : Reg} {o : Op2} (h : o ≠ .reg d) (v : Word) :
    (s.setReg d v).val o = s.val o := by
  cases o with
  | imm w => rfl
  | reg m => exact s.reg_setReg_ne v fun hm => h (hm ▸ rfl)

/-- Two ALU lines in a row with one operand 2, the second on the first's result. -/
theorem State.alu3_alu3_reg {d : Reg} {o : Op2} (h : o ≠ .reg d) (s : State) (f g : Word → Word → Word) (n : Reg) :
    ((s.alu3 f d n o).alu3 g d d o).reg d = g (f (s.reg n) (s.val o)) (s.val o) := by
  simp only [State.alu3, State.advance_reg, State.advance_val, State.reg_setReg_same, State.val_setReg_of_ne h]

/-- A word that reads as a non-negative number reads the same unsigned. -/
theorem toInt_eq_toNat_of_nonneg {b : Word} (h : 0 ≤ b.toInt) : b.toInt = b.toNat := by
  have := BitVec.toInt_eq_toNat_cond b
  split at this <;> omega

/-- A shift by a legal amount writes its destination (R126, R128). -/
theorem State.shift_of_inRange {s : State} {o : Op2} (h : shiftInRange (s.val o) = true) (f : Word → Nat → Word)
    (d n : Reg) : s.shift f d n o = (s.setReg d (f (s.reg n) (s.val o).toNat)).advance :=
  if_pos h

/-- A shift by any other amount is fatal (R127). -/
theorem State.shift_of_outOfRange {s : State} {o : Op2} (h : (s.val o).toInt < 0 ∨ 31 < (s.val o).toInt)
    (f : Word → Nat → Word) (d n : Reg) : s.shift f d n o = s.raise .shiftAmountOutOfRange := by
  have hr : ¬ shiftInRange (s.val o) = true := by
    simp only [shiftInRange, Bool.and_eq_true, decide_eq_true_eq]; omega
  exact if_neg hr

/-- Without an entry for its label every branch is fatal, taken or not (R145, R174). -/
theorem State.branchTo_of_labelIndex_eq_none {s : State} {l : LabelId} (h : labelIndex s.prog l = none) (o : BrOp) :
    s.branchTo o l = s.raise .unknownLabel := by
  rw [State.branchTo, h]; rfl

/-! ## Bits of the ALU's results -/

theorem aluEor_ones (a : Word) : aluEor a (-1) = aluNot a := BitVec.xor_allOnes

theorem aluEor_aluEor (a b : Word) : aluEor (aluEor a b) b = a := by
  rw [aluEor, aluEor, BitVec.xor_assoc, BitVec.xor_self, BitVec.xor_zero]

theorem aluAdd_aluSub (a b : Word) : aluAdd (aluSub a b) b = a := by
  rw [aluAdd_eq, aluSub_eq, BitVec.sub_add_cancel]

/-- The complement of `v` is `-v - 1` (R131). -/
theorem aluNot_toInt (v : Word) : (aluNot v).toInt = -v.toInt - 1 := by
  have h := BitVec.toInt_eq_toNat_cond v
  have h' := BitVec.toInt_eq_toNat_cond (~~~v)
  have hn : (~~~v).toNat = 2 ^ 32 - 1 - v.toNat := BitVec.toNat_not
  have := v.isLt
  rw [aluNot]
  split at h <;> split at h' <;> omega

theorem getLsbD_aluNot (v : Word) {i : Nat} (hi : i < 32) : (aluNot v).getLsbD i = !v.getLsbD i := by
  rw [aluNot, BitVec.getLsbD_not, decide_eq_true hi, Bool.true_and]

theorem getLsbD_aluLsl (a : Word) (n : Nat) {i : Nat} (hi : i < 32) :
    (aluLsl a n).getLsbD i = if i < n then false else a.getLsbD (i - n) := by
  rw [aluLsl_eq, BitVec.getLsbD_shiftLeft]
  split <;> simp [*]

theorem getLsbD_aluLsr_logical (a : Word) (n i : Nat) :
    (aluLsr .logical a n).getLsbD i = if i + n < 32 then a.getLsbD (i + n) else false := by
  rw [aluLsr_logical, BitVec.getLsbD_ushiftRight, Nat.add_comm]
  split
  · rfl
  · exact BitVec.getLsbD_of_ge _ _ (by omega)

theorem getLsbD_aluLsr_arithmetic (a : Word) (n : Nat) {i : Nat} (hi : i < 32) :
    (aluLsr .arithmetic a n).getLsbD i = if i + n < 32 then a.getLsbD (i + n) else a.getLsbD 31 := by
  have h31 : a.msb = a.getLsbD 31 := a.msb_eq_getLsbD_last
  rw [aluLsr_arithmetic, BitVec.getLsbD_sshiftRight, Nat.add_comm n i, h31]
  simp [hi, -not_le]

/-- The two fills agree on a non-negative word and on amount 0, and differ in bit 31 otherwise (R128). -/
theorem aluLsr_modes_agree_iff (a : Word) {n : Nat} (hn : n ≤ 31) :
    aluLsr .logical a n = aluLsr .arithmetic a n ↔ 0 ≤ a.toInt ∨ n = 0 := by
  have hmsb : a.msb = false ↔ 0 ≤ a.toInt := by
    have := a.msb_eq_toInt
    simp [this]
  have h31 : a.msb = a.getLsbD 31 := a.msb_eq_getLsbD_last
  constructor
  · intro h
    by_contra hc
    obtain ⟨hneg, hpos⟩ := not_or.mp hc
    have hbit := congrArg (fun b => b.getLsbD 31) h
    simp only [getLsbD_aluLsr_logical, getLsbD_aluLsr_arithmetic a n (by decide : 31 < 32)] at hbit
    rw [if_neg (by omega), if_neg (by omega), ← h31] at hbit
    exact hneg (hmsb.mp hbit.symm)
  · rintro (h | rfl)
    · rw [aluLsr_logical, aluLsr_arithmetic, BitVec.sshiftRight_eq_of_msb_false (hmsb.mpr h)]
    · rw [aluLsr_logical, aluLsr_arithmetic, BitVec.ushiftRight_zero, BitVec.sshiftRight_zero]

end Sys2Proof.Machine
end

section
open Sys2Proof Sys2Proof.Machine

/-- Settles O33: a register write and an advance. -/
theorem ldrLoadsTheWord : Obligations.LdrLoadsTheWord :=
  fun d a s => ⟨_, rfl, s.setReg_advance_regResult d (s.memWord a)⟩

/-- Settles O34: a store and an advance. -/
theorem strStoresTheRegister : Obligations.StrStoresTheRegister :=
  fun d a s h => ⟨_, rfl, State.setMem_advance_memResult h a (s.reg d)⟩

/-- Settles O35: a register write of the wrapped sum. -/
theorem addWrapsTheSum : Obligations.AddWrapsTheSum :=
  fun d _ _ s => ⟨_, _, rfl, s.setReg_advance_regResult d _, wrap32_toNat _⟩

/-- Settles O36: a register write of the wrapped difference. -/
theorem subWrapsTheDifference : Obligations.SubWrapsTheDifference :=
  fun d _ _ s => ⟨_, _, rfl, s.setReg_advance_regResult d _, wrap32_toNat _⟩

/-- Settles O37: three register writes, their bits by the library's lemma of each operation. -/
theorem bitwiseActBitByBit : Obligations.BitwiseActBitByBit :=
  fun d _ _ s =>
    ⟨⟨_, _, rfl, s.setReg_advance_regResult d _, fun _ _ => BitVec.getLsbD_and⟩,
      ⟨_, _, rfl, s.setReg_advance_regResult d _, fun _ _ => BitVec.getLsbD_or⟩,
      ⟨_, _, rfl, s.setReg_advance_regResult d _, fun _ _ => BitVec.getLsbD_xor⟩⟩

/-- Settles O38: a legal amount reads the same signed and unsigned, and the bits are those of `getLsbD_aluLsl`. -/
theorem lslMovesBitsUp : Obligations.LslMovesBitsUp := by
  intro d n o s hlo hhi
  have hr : shiftInRange (s.val o) = true := by simp [shiftInRange, hlo, hhi]
  refine ⟨_, _, congrArg Host.Outcome.next (State.shift_of_inRange hr aluLsl d n), s.setReg_advance_regResult d _,
    fun i hi => ?_⟩
  rw [getLsbD_aluLsl _ _ hi, toInt_eq_toNat_of_nonneg hlo]
  simp

/-- Settles O39: each fill by its own lemma about the bits. -/
theorem lsrMovesBitsDown : Obligations.LsrMovesBitsDown := by
  intro d n o s hlo hhi
  have hr : shiftInRange (s.val o) = true := by simp [shiftInRange, hlo, hhi]
  refine ⟨_, _, congrArg Host.Outcome.next (State.shift_of_inRange hr (aluLsr Config.lsrMode) d n),
    s.setReg_advance_regResult d _, fun hm i hi => ?_, fun hm i hi => ?_⟩
  · rw [hm, getLsbD_aluLsr_logical, toInt_eq_toNat_of_nonneg hlo, Int.toNat_natCast]
    norm_cast
  · rw [hm, getLsbD_aluLsr_arithmetic _ _ hi, toInt_eq_toNat_of_nonneg hlo, Int.toNat_natCast]
    norm_cast

/-- Settles O40: both shifts are `State.shift`, which raises. -/
theorem shiftAmountOutOfRangeIsFatal : Obligations.ShiftAmountOutOfRangeIsFatal :=
  fun d n _ s h =>
    ⟨⟨_, congrArg Host.Outcome.next (State.shift_of_outOfRange h aluLsl d n), s.raise_fatalResult _⟩,
      ⟨_, congrArg Host.Outcome.next (State.shift_of_outOfRange h (aluLsr Config.lsrMode) d n), s.raise_fatalResult _⟩⟩

/-- Settles O41: two register writes. -/
theorem movCopiesMvnComplements : Obligations.MovCopiesMvnComplements :=
  fun d _ s =>
    ⟨⟨_, rfl, s.setReg_advance_regResult d _⟩,
      ⟨_, _, rfl, s.setReg_advance_regResult d _, fun _ => getLsbD_aluNot _, aluNot_toInt _⟩⟩

/-- Settles O42: the flag written is `compareFlag`, whose three branches are the three orders. -/
theorem cmpLatchesTheComparison : Obligations.CmpLatchesTheComparison := by
  intro n o s
  refine ⟨_, _, rfl, s.setFlag_advance_flagResult _, fun h => ?_, fun h => ?_, fun h => ?_⟩
  · rw [compareFlag, if_pos h]
  · rw [compareFlag, if_neg (by omega), if_pos h]
  · rw [compareFlag, if_neg (by omega), if_neg (by omega)]

/-- Settles O44: the five branches are one operation, which raises where the label has no entry. -/
theorem unknownLabelIsFatal : Obligations.UnknownLabelIsFatal := by
  intro o l s h
  refine ⟨_, exec_brInstr o l s, ?_⟩
  rw [State.branchTo_of_labelIndex_eq_none h]
  exact s.raise_fatalResult _

/-- Settles O45: HALT is `State.stop`. -/
theorem haltStopsTheMachine : Obligations.HaltStopsTheMachine :=
  fun s => ⟨_, rfl, s.stop_stopResult⟩

/-- Settles O46: both lines are an advance. -/
theorem labelAndBlankOnlyAdvance : Obligations.LabelAndBlankOnlyAdvance :=
  fun _ s => ⟨⟨_, rfl, s.advance_pcResult⟩, ⟨_, rfl, s.advance_pcResult⟩⟩

/-- Settles O48: BAD is a `raise`. -/
theorem badIsMalformed : Obligations.BadIsMalformed :=
  fun s => ⟨_, rfl, s.raise_fatalResult _⟩

/-- Settles O50: operand 2 is not the destination, so ADD reads the value that SUB read. -/
theorem addUndoesSub : Obligations.AddUndoesSub := by
  intro d n o s h
  refine ⟨_, _, rfl, rfl, ?_⟩
  rw [State.alu3_alu3_reg h, aluAdd_aluSub]

/-- Settles O51: the fills differ in the sign bit alone. -/
theorem lsrModesAgreeExactlyOnNonNegative : Obligations.LsrModesAgreeExactlyOnNonNegative :=
  fun a _ hn => aluLsr_modes_agree_iff a hn

/-- Settles O52: EOR with ones is the complement of the same register, and EOR is its own inverse. -/
theorem eorWithOnesIsMvn : Obligations.EorWithOnesIsMvn := by
  intro d n o s
  constructor
  · rw [exec_eq_apply, exec_eq_apply, update, update, State.val_imm, State.val_reg, aluEor_ones]
  · intro h
    refine ⟨_, _, rfl, rfl, ?_⟩
    rw [State.alu3_alu3_reg h, aluEor_aluEor]
end

section
/-!
SUPPORT. The rows of the opcode table, format by format: which words a row covers.
-/
namespace Sys2Proof

/-! ## A row field by field -/

/-- A word belongs to a row when each of its fields agrees with the row's pattern under the row's mask. -/
theorem OpcodeRow.covers_iff (r : OpcodeRow) (w : IWord) : r.covers w = true ↔
    opField w &&& opField r.mask = opField r.pattern ∧ rdField w &&& rdField r.mask = rdField r.pattern ∧
    rnField w &&& rnField r.mask = rnField r.pattern ∧ kField w &&& kField r.mask = kField r.pattern ∧
    pField w &&& pField r.mask = pField r.pattern := by
  have hand : ∀ a b : IWord, a &&& b = mkWord (opField a &&& opField b) (rdField a &&& rdField b)
      (rnField a &&& rnField b) (kField a &&& kField b) (pField a &&& pField b) := by
    intro a b
    rw [← mkWord_fields (a &&& b)]
    simp only [opField, rdField, rnField, kField, pField, BitVec.extractLsb'_and]
  rw [OpcodeRow.covers, beq_iff_eq]
  constructor
  · intro h
    rw [← h, hand w r.mask]
    simp
  · rintro ⟨hop, hrd, hrn, hk, hp⟩
    rw [hand, hop, hrd, hrn, hk, hp, mkWord_fields]

/-! A field under one of the masks that the table uses. -/

theorem and_FF (f : BitVec 8) : f &&& 0xFF = f := BitVec.and_allOnes

theorem and_all (p : BitVec 32) : p &&& 0xFFFFFFFF = p := BitVec.and_allOnes

/-- A field is zero under the mask of all bits from `k` on exactly when it is a number below `2 ^ k`. -/
theorem and_high_eq_zero {n : Nat} (f : BitVec n) (k : Nat) :
    f &&& (BitVec.allOnes n <<< k) = 0 ↔ f.toNat < 2 ^ k := by
  rw [← BitVec.shiftLeft_ushiftRight, ← BitVec.toNat_inj, BitVec.toNat_shiftLeft, BitVec.toNat_ushiftRight,
    Nat.shiftLeft_eq, Nat.shiftRight_eq_div_pow, show (0 : BitVec n).toNat = 0 from BitVec.toNat_zero,
    Nat.mod_eq_of_lt (lt_of_le_of_lt (Nat.div_mul_le_self _ _) f.isLt), Nat.mul_eq_zero,
    Nat.div_eq_zero_iff_lt (Nat.two_pow_pos k), or_iff_left (Nat.two_pow_pos k).ne']

/-- A register field is zero in its upper half (R78). -/
theorem and_F0_eq_zero {f : BitVec 8} : f &&& 0xF0 = 0 ↔ ∃ r, f = regField r := by
  rw [show (0xF0 : BitVec 8) = BitVec.allOnes 8 <<< 4 from rfl, and_high_eq_zero]
  exact ⟨fun h => ⟨⟨f.toNat, h⟩, eq_regField_of_regOf (regOf_eq_some.mpr rfl)⟩,
    fun ⟨r, hr⟩ => by rw [hr, regField_toNat]; exact r.isLt⟩

/-- A payload that numbers a register. -/
theorem and_regPayload_eq_zero {p : BitVec 32} :
    p &&& 0xFFFFFFF0 = 0 ↔ ∃ m : Reg, p = BitVec.ofNat 32 m.val := by
  rw [show (0xFFFFFFF0 : BitVec 32) = BitVec.allOnes 32 <<< 4 from rfl, and_high_eq_zero]
  exact ⟨fun h => ⟨⟨p.toNat, h⟩, by simp⟩,
    fun ⟨m, hm⟩ => by rw [hm, regPayload_toNat]; exact m.isLt⟩

/-- A payload that numbers a data word. -/
theorem and_memPayload_eq_zero {p : BitVec 32} :
    p &&& 0xFFFFFF00 = 0 ↔ ∃ a : MemIx, p = BitVec.ofNat 32 a.val := by
  rw [show (0xFFFFFF00 : BitVec 32) = BitVec.allOnes 32 <<< 8 from rfl, and_high_eq_zero]
  exact ⟨fun h => ⟨⟨p.toNat, h⟩, by simp⟩,
    fun ⟨a, ha⟩ => by rw [ha, memPayload_toNat]; exact a.isLt⟩

/-! ## Operand 2 in a row: immediates and registers have a row each -/

/-- Operand 2 is a register. -/
def Op2.isReg : Op2 → Bool
  | .imm _ => false
  | .reg _ => true

/-- The first operand 2 of a kind. -/
def Op2.first : Bool → Op2
  | false => .imm 0
  | true => .reg 0

/-- The payload bits that the kind fixes (R78). -/
def payloadMask : Bool → BitVec 32
  | false => 0
  | true => 0xFFFFFFF0

/-- The `k` and payload fields of a row of one kind of operand 2 are those of an operand 2 of that kind. -/
theorem op2_fields_iff {b : Bool} {k : BitVec 8} {p : BitVec 32} :
    (k = (Op2.first b).k ∧ p &&& payloadMask b = (Op2.first b).p) ↔ ∃ v : Op2, v.isReg = b ∧ k = v.k ∧ p = v.p := by
  cases b with
  | false =>
    change _ ∧ p &&& 0 = 0 ↔ _
    rw [show p &&& 0 = 0 from BitVec.and_zero]
    refine ⟨fun h => ⟨.imm p, rfl, h.1, rfl⟩, fun ⟨v, hv, hk, _⟩ => ⟨?_, rfl⟩⟩
    cases v with
    | imm => exact hk
    | reg => cases hv
  | true =>
    change _ ∧ p &&& 0xFFFFFFF0 = 0 ↔ _
    rw [and_regPayload_eq_zero]
    refine ⟨fun ⟨hk, m, hm⟩ => ⟨.reg m, rfl, hk, hm⟩, fun ⟨v, hv, hk, hp⟩ => ?_⟩
    cases v with
    | imm => cases hv
    | reg m => exact ⟨hk, m, hp⟩

/-! ## The rows by format -/

/-- A row of the table, written as a line it stands for and the masks of its five fields. -/
def rowOf (i : Instr) (op rd rn k : BitVec 8) (p : BitVec 32) : OpcodeRow := ⟨i.mnemonic, mkWord op rd rn k p, encode i⟩

theorem covers_rowOf {i : Instr} {op rd rn k op' rd' rn' k' : BitVec 8} {p p' : BitVec 32}
    (h : encode i = mkWord op' rd' rn' k' p') (w : IWord) : (rowOf i op rd rn k p).covers w = true ↔
      opField w &&& op = op' ∧ rdField w &&& rd = rd' ∧ rnField w &&& rn = rn' ∧ kField w &&& k = k' ∧
      pField w &&& p = p' := by
  rw [OpcodeRow.covers_iff, rowOf, h]
  simp only [opField_mkWord, rdField_mkWord, rnField_mkWord, kField_mkWord, pField_mkWord]

/-- A word is given by its five fields. -/
theorem eq_mkWord_iff {w : IWord} {op rd rn k : BitVec 8} {p : BitVec 32} : w = mkWord op rd rn k p ↔
    opField w = op ∧ rdField w = rd ∧ rnField w = rn ∧ kField w = k ∧ pField w = p := by
  constructor
  · rintro rfl; simp
  · rintro ⟨rfl, rfl, rfl, rfl, rfl⟩; exact (mkWord_fields w).symm

/-- The row of an instruction of shape `d m`. -/
def memRow (o : MemOp) : OpcodeRow := rowOf (o.instr 0 0) 0xFF 0xF0 0xFF 0xFF 0xFFFFFF00

theorem covers_memRow {o : MemOp} {w : IWord} : (memRow o).covers w = true ↔ ∃ d a, w = encMem o d a := by
  rw [memRow, covers_rowOf (encode_memInstr o 0 0)]
  simp only [encMem, eq_mkWord_iff, and_FF]
  change _ ∧ _ = 0 ∧ _ ∧ _ ∧ _ = 0 ↔ _
  rw [and_F0_eq_zero, and_memPayload_eq_zero]
  grind

/-- The two rows of an instruction of shape `d n 2`. -/
def alu3Row (o : Alu3Op) (b : Bool) : OpcodeRow := rowOf (o.instr 0 0 (.first b)) 0xFF 0xF0 0xF0 0xFF (payloadMask b)

theorem covers_alu3Row {o : Alu3Op} {b : Bool} {w : IWord} :
    (alu3Row o b).covers w = true ↔ ∃ d n v, v.isReg = b ∧ w = encAlu3 o d n v := by
  rw [alu3Row, covers_rowOf (encode_alu3Instr o 0 0 (.first b))]
  simp only [encAlu3, eq_mkWord_iff, and_FF]
  change _ ∧ _ = 0 ∧ _ = 0 ∧ _ ↔ _
  rw [and_F0_eq_zero, and_F0_eq_zero, op2_fields_iff]
  grind

/-- The two rows of an instruction of shape `d 2`. -/
def alu2Row (o : Alu2Op) (b : Bool) : OpcodeRow := rowOf (o.instr 0 (.first b)) 0xFF 0xF0 0xFF 0xFF (payloadMask b)

theorem covers_alu2Row {o : Alu2Op} {b : Bool} {w : IWord} :
    (alu2Row o b).covers w = true ↔ ∃ d v, v.isReg = b ∧ w = encAlu2 o d v := by
  rw [alu2Row, covers_rowOf (encode_alu2Instr o 0 (.first b))]
  simp only [encAlu2, eq_mkWord_iff, and_FF]
  change _ ∧ _ = 0 ∧ _ ↔ _
  rw [and_F0_eq_zero, op2_fields_iff]
  grind

/-- The two rows of CMP. -/
def cmpRow (b : Bool) : OpcodeRow := rowOf (.cmp 0 (.first b)) 0xFF 0xFF 0xF0 0xFF (payloadMask b)

theorem covers_cmpRow {b : Bool} {w : IWord} : (cmpRow b).covers w = true ↔ ∃ n v, v.isReg = b ∧ w = encCmp n v := by
  rw [cmpRow, covers_rowOf (show encode (.cmp 0 (.first b)) = encCmp 0 (.first b) from rfl)]
  simp only [encCmp, eq_mkWord_iff, and_FF]
  change _ ∧ _ ∧ _ = 0 ∧ _ ↔ _
  rw [and_F0_eq_zero, op2_fields_iff]
  grind

/-- The row of a branch. -/
def brRow (o : BrOp) : OpcodeRow := rowOf (o.instr 0) 0xFF 0xFF 0xFF 0xFF 0

theorem covers_brRow {o : BrOp} {w : IWord} : (brRow o).covers w = true ↔ ∃ l, w = encBr o l := by
  rw [brRow, covers_rowOf (encode_brInstr o 0)]
  simp only [encBr, eq_mkWord_iff, and_FF]
  rw [show pField w &&& 0 = 0 from BitVec.and_zero]
  grind

/-- The row of HALT, one word. -/
def haltRow : OpcodeRow := rowOf .halt 0xFF 0xFF 0xFF 0xFF 0xFFFFFFFF

theorem covers_haltRow {w : IWord} : haltRow.covers w = true ↔ w = encode .halt := by
  rw [haltRow, covers_rowOf (show encode .halt = mkWord Mnemonic.halt.opcode 0 0 0 0 from rfl)]
  simp only [encode, eq_mkWord_iff, and_FF, and_all]

/-- A row of a line kind: it looks at the bits `m` of the opcode alone. -/
def kindRow (i : Instr) (m : BitVec 8) : OpcodeRow := rowOf i m 0 0 0 0

theorem covers_kindRow {i : Instr} {m op : BitVec 8} (hi : encode i = mkWord op 0 0 0 0) {w : IWord} :
    (kindRow i m).covers w = true ↔ opField w &&& m = op := by
  rw [kindRow, covers_rowOf hi]
  refine ⟨fun h => h.1, fun h => ⟨h, ?_⟩⟩
  simp

/-- The rows of UNK: an opcode mask and the first opcode under it. -/
def unkBlocks : List (BitVec 8 × BitVec 8) :=
  [(0xFC, 0x14), (0xF8, 0x18), (0xE0, 0x20), (0xC0, 0x40), (0xC0, 0x80), (0xE0, 0xC0), (0xF0, 0xE0), (0xF8, 0xF0),
    (0xFC, 0xF8), (0xFE, 0xFC), (0xFF, 0xFE)]

/-- The blocks of UNK are the reserved opcodes (R81). -/
theorem reservedOpcode_iff_block (op : BitVec 8) :
    reservedOpcode op = true ↔ ∃ e ∈ unkBlocks, op &&& e.1 = e.2 := by
  revert op; decide

/-! ## The table -/

/-- The rows of the table, by format. -/
inductive TableRow : OpcodeRow → Prop where
  | mem (o : MemOp) : TableRow (memRow o)
  | alu3 (o : Alu3Op) (b : Bool) : TableRow (alu3Row o b)
  | alu2 (o : Alu2Op) (b : Bool) : TableRow (alu2Row o b)
  | cmp (b : Bool) : TableRow (cmpRow b)
  | br (o : BrOp) : TableRow (brRow o)
  | halt : TableRow haltRow
  | label : TableRow (kindRow (.label 0) 0xFF)
  | blank : TableRow (kindRow .blank 0xFF)
  | unk (e : BitVec 8 × BitVec 8) (block : e ∈ unkBlocks) : TableRow (kindRow (.unk e.2) e.1)
  | bad : TableRow (kindRow .bad 0xFF)

theorem memRows_eq : memRows = [.ldr, .str].map memRow := by decide

theorem alu3Rows_eq : alu3Rows =
    [.add, .sub, .and, .orr, .eor, .lsl, .lsr].flatMap fun o => [alu3Row o false, alu3Row o true] := by
  decide

theorem alu2Rows_eq : alu2Rows = [.mov, .mvn].flatMap fun o => [alu2Row o false, alu2Row o true] := by decide

theorem cmpRows_eq : cmpRows = [cmpRow false, cmpRow true] := by decide

theorem branchRows_eq : branchRows = [.b, .beq, .bne, .bgt, .blt].map brRow := by decide

theorem lineRows_eq : lineRows = [kindRow .blank 0xFF, kindRow (.label 0) 0xFF, haltRow, kindRow .bad 0xFF] := by decide

theorem unkRows_eq : unkRows = unkBlocks.map fun e => kindRow (.unk e.2) e.1 := by decide

theorem mem_opcodeTable_iff (r : OpcodeRow) : r ∈ opcodeTable ↔ r ∈ memRows ∨ r ∈ alu3Rows ∨ r ∈ alu2Rows ∨
    r ∈ cmpRows ∨ r ∈ branchRows ∨ r ∈ lineRows ∨ r ∈ unkRows := by
  simp only [opcodeTable, List.mem_append, or_assoc]

theorem TableRow.mem_opcodeTable {r : OpcodeRow} (h : TableRow r) : r ∈ opcodeTable := by
  cases h with
  | mem o => cases o <;> decide
  | alu3 o b => cases o <;> cases b <;> decide
  | alu2 o b => cases o <;> cases b <;> decide
  | cmp b => cases b <;> decide
  | br o => cases o <;> decide
  | halt => decide
  | label => decide
  | blank => decide
  | unk e block =>
    rw [mem_opcodeTable_iff, unkRows_eq]
    simp only [List.mem_map]
    tauto
  | bad => decide

theorem TableRow.of_mem {r : OpcodeRow} (h : r ∈ opcodeTable) : TableRow r := by
  rw [mem_opcodeTable_iff, memRows_eq, alu3Rows_eq, alu2Rows_eq, cmpRows_eq, branchRows_eq, lineRows_eq,
    unkRows_eq] at h
  obtain h | h | h | h | h | h | h := h
  · obtain ⟨o, -, rfl⟩ := List.mem_map.mp h
    exact .mem o
  · obtain ⟨o, -, h⟩ := List.mem_flatMap.mp h
    obtain rfl | rfl := List.mem_pair.mp h
    · exact .alu3 o false
    · exact .alu3 o true
  · obtain ⟨o, -, h⟩ := List.mem_flatMap.mp h
    obtain rfl | rfl := List.mem_pair.mp h
    · exact .alu2 o false
    · exact .alu2 o true
  · obtain rfl | rfl := List.mem_pair.mp h
    · exact .cmp false
    · exact .cmp true
  · obtain ⟨o, -, rfl⟩ := List.mem_map.mp h
    exact .br o
  · simp only [List.mem_cons, List.not_mem_nil, or_false] at h
    obtain rfl | rfl | rfl | rfl := h
    · exact .blank
    · exact .label
    · exact .halt
    · exact .bad
  · obtain ⟨e, he, rfl⟩ := List.mem_map.mp h
    exact .unk e he

/-- A word of a row decodes, to an instruction of the row's mnemonic. -/
theorem TableRow.decodes {r : OpcodeRow} (h : TableRow r) {w : IWord} (hw : r.covers w = true) :
    ∃ i, Decodes w i ∧ i.mnemonic = r.mnemonic := by
  cases h with
  | mem o =>
    obtain ⟨d, a, rfl⟩ := covers_memRow.mp hw
    exact ⟨_, .mem o d a, by cases o <;> rfl⟩
  | alu3 o b =>
    obtain ⟨d, n, v, -, rfl⟩ := covers_alu3Row.mp hw
    exact ⟨_, .alu3 o d n v, by cases o <;> rfl⟩
  | alu2 o b =>
    obtain ⟨d, v, -, rfl⟩ := covers_alu2Row.mp hw
    exact ⟨_, .alu2 o d v, by cases o <;> rfl⟩
  | cmp b =>
    obtain ⟨n, v, -, rfl⟩ := covers_cmpRow.mp hw
    exact ⟨_, .cmp n v, rfl⟩
  | br o =>
    obtain ⟨l, rfl⟩ := covers_brRow.mp hw
    exact ⟨_, .br o l, by cases o <;> rfl⟩
  | halt =>
    obtain rfl := covers_haltRow.mp hw
    exact ⟨_, .halt, rfl⟩
  | label => exact ⟨_, .label w ((and_FF _).symm.trans ((covers_kindRow rfl).mp hw)), rfl⟩
  | blank => exact ⟨_, .blank w ((and_FF _).symm.trans ((covers_kindRow rfl).mp hw)), rfl⟩
  | unk e block => exact ⟨_, .unk w ((reservedOpcode_iff_block _).mpr ⟨e, block, (covers_kindRow rfl).mp hw⟩), rfl⟩
  | bad => exact ⟨_, .bad w ((and_FF _).symm.trans ((covers_kindRow rfl).mp hw)), rfl⟩

/-- A word that decodes has a row of its instruction's mnemonic. -/
theorem Decodes.tableRow {w : IWord} {i : Instr} (h : Decodes w i) :
    ∃ r, TableRow r ∧ r.covers w = true ∧ i.mnemonic = r.mnemonic := by
  cases h with
  | mem o d a => exact ⟨_, .mem o, covers_memRow.mpr ⟨d, a, rfl⟩, by cases o <;> rfl⟩
  | alu3 o d n v => exact ⟨_, .alu3 o v.isReg, covers_alu3Row.mpr ⟨d, n, v, rfl, rfl⟩, by cases o <;> rfl⟩
  | alu2 o d v => exact ⟨_, .alu2 o v.isReg, covers_alu2Row.mpr ⟨d, v, rfl, rfl⟩, by cases o <;> rfl⟩
  | cmp n v => exact ⟨_, .cmp v.isReg, covers_cmpRow.mpr ⟨n, v, rfl, rfl⟩, rfl⟩
  | br o l => exact ⟨_, .br o, covers_brRow.mpr ⟨l, rfl⟩, by cases o <;> rfl⟩
  | halt => exact ⟨_, .halt, covers_haltRow.mpr rfl, rfl⟩
  | label _ op => exact ⟨_, .label, (covers_kindRow rfl).mpr ((and_FF _).trans op), rfl⟩
  | blank _ op => exact ⟨_, .blank, (covers_kindRow rfl).mpr ((and_FF _).trans op), rfl⟩
  | unk _ op =>
    obtain ⟨e, block, he⟩ := (reservedOpcode_iff_block _).mp op
    exact ⟨_, .unk e block, (covers_kindRow rfl).mpr he, rfl⟩
  | bad _ op => exact ⟨_, .bad, (covers_kindRow rfl).mpr ((and_FF _).trans op), rfl⟩

/-- Rows whose patterns differ under both masks share no word. -/
theorem OpcodeRow.disjoint_of_ne {r r' : OpcodeRow} (h : r.pattern &&& r'.mask ≠ r'.pattern &&& r.mask) (w : IWord) :
    ¬ (r.covers w = true ∧ r'.covers w = true) := by
  rintro ⟨hr, hr'⟩
  rw [OpcodeRow.covers, beq_iff_eq] at hr hr'
  apply h
  rw [← hr, ← hr', BitVec.and_assoc, BitVec.and_assoc, BitVec.and_comm r.mask]

/-- Each two rows of the table differ under both masks. -/
theorem opcodeTable_pairwise : opcodeTable.Pairwise fun r r' => r.pattern &&& r'.mask ≠ r'.pattern &&& r.mask := by
  decide

end Sys2Proof
end

section
open Sys2Proof Sys2Proof.Machine

/-- Settles O3: each word is evaluated. -/
theorem writtenOutWordsDecode : Obligations.WrittenOutWordsDecode := by
  unfold Obligations.WrittenOutWordsDecode
  decide

/-- Settles O4: the verdict of R79 and R80, the opcode of BAD, and BAD's own effect. -/
theorem decodeErrorsAreExactlyTheRules : Obligations.DecodeErrorsAreExactlyTheRules :=
  fun w => ⟨(decode_verdict w).malformed_iff, (decode_verdict w).index_iff, decode_eq_bad_iff w,
    fun _ => badIsMalformed⟩

/-- Settles O5: rows and decodable words are matched format by format; two rows differ in a bit that both fix. -/
theorem opcodeTableIsTheDecoder : Obligations.OpcodeTableIsTheDecoder := by
  refine ⟨fun r hr w hw => ?_, fun w i h => ?_, opcodeTable_pairwise.imp OpcodeRow.disjoint_of_ne⟩
  · obtain ⟨i, hi, hm⟩ := (TableRow.of_mem hr).decodes hw
    exact ⟨i, decode_eq_ok_iff.mpr hi, hm⟩
  · obtain ⟨r, hr, hc, hm⟩ := (Decodes.of_decode h).tableRow
    exact ⟨r, hr.mem_opcodeTable, hc, hm⟩

/-- Settles O6: the opcode alone selects these lines. -/
theorem ignoredBitsChangeNothing : Obligations.IgnoredBitsChangeNothing := by
  refine fun w => ⟨fun h => ?_, fun h => ?_, fun hlo hhi => ?_, (decode_eq_bad_iff w).mpr⟩
  · exact decode_of_blank (BitVec.eq_of_toNat_eq h)
  · exact decode_of_label (BitVec.eq_of_toNat_eq h)
  · exact decode_of_reserved (by simp [reservedOpcode, hlo, hhi])
end

section
/-!
SUPPORT. What a step can have done, in the shape the statements of 10_state.md and 40_step_cycle.md ask for.
-/
namespace Sys2Proof.Machine
open Sys2Proof.Claims

/-- A machine whose program fits answers every step. -/
theorem exists_step {s : State} (hp : programWf s.prog = true) : ∃ t, step s = .next t := by
  cases hr : s.running with
  | false => exact ⟨s, step_of_halted hp hr⟩
  | true =>
    cases hf : s.fetch with
    | none => exact ⟨_, step_of_noLine hp hr hf⟩
    | some w =>
      have hw : s.Fetches w := ⟨hp, hr, hf⟩
      cases hd : decode w with
      | error e => exact ⟨_, step_of_error hw hd⟩
      | ok i =>
        obtain ⟨t, ht, -⟩ := exec_effect i s
        exact ⟨t, (step_of_ok hw hd).trans ht⟩

/-- A step keeps the state, raises a cause, or has the effect of the decoded line. -/
inductive StepEffect (s : State) : State → Prop where
  | held (stopped : s.running = false) : StepEffect s s
  | fatal (c : FatalCause) (running : s.running = true) : StepEffect s (s.raise c)
  | line (w : IWord) (i : Instr) (t : State) (fetches : s.Fetches w) (decodes : decode w = .ok i)
      (effect : Effect i s t) : StepEffect s t

theorem stepEffect_of_step {s t : State} (h : step s = .next t) : StepEffect s t := by
  obtain ⟨-, ⟨hr, rfl⟩ | ⟨hr, -, rfl⟩ | ⟨w, e, hw, -, rfl⟩ | ⟨w, i, hw, hd, hx⟩⟩ := step_cases h
  · exact .held hr
  · exact .fatal _ hr
  · exact .fatal _ hw.running
  · exact .line w i t hw hd (exec_effect_of hx)

theorem step_prog {s t : State} (h : step s = .next t) : t.prog = s.prog := by
  cases stepEffect_of_step h with
  | held => rfl
  | fatal => rfl
  | line w i _ _ _ he => exact he.prog

theorem step_strict {s t : State} (h : step s = .next t) : t.strict = s.strict := by
  cases stepEffect_of_step h with
  | held => rfl
  | fatal => rfl
  | line w i _ _ _ he => exact he.strict

/-- In a machine without a fault, a step leaves a cause only by raising it. -/
theorem eq_raise_of_step_fault {s t : State} {c : FatalCause} (hf : s.fault = none) (h : step s = .next t)
    (hc : t.fault = some c) : t = s.raise c := by
  cases stepEffect_of_step h with
  | held => rw [hf] at hc; cases hc
  | fatal c' => cases hc; rfl
  | line w i _ _ _ he =>
    cases he with
    | fatal c' => cases hc; rfl
    | _ => exact absurd (hf.symm.trans hc) (by simp)

/-- A step past the last line is PcOutOfRange (R101, R171). -/
theorem fatalStep_of_pastEnd {s : State} (hp : programWf s.prog = true) (hr : s.running = true)
    (hl : s.prog.length ≤ s.pc.toNat) : FatalStep s .pcOutOfRange :=
  fatalStep_of_raise (step_of_noLine hp hr (List.getElem?_eq_none hl))

/-- Where a line is fetched the increment of `pc` does not wrap (R12). -/
theorem State.Fetches.pc_lt {s : State} {w : IWord} (h : s.Fetches w) : s.pc.toNat < s.prog.length :=
  (List.getElem?_eq_some_iff.mp h.line).1

theorem State.Fetches.succ_toNat {s : State} {w : IWord} (h : s.Fetches w) : (s.pc + 1).toNat = s.pc.toNat + 1 := by
  have hpc := h.pc_lt
  have hlen := (programWf_iff s.prog).mp h.progWf
  rw [BitVec.toNat_add]
  exact Nat.mod_eq_of_lt (by simp; omega)

/-! ## The flag (R14) -/

/-- The one effect that changes the flag is a CMP's. -/
theorem Effect.isCmp_of_flag_ne {i : Instr} {s t : State} (h : Effect i s t) (hne : t.flag ≠ s.flag) :
    ∃ n o, i = .cmp n o := by
  cases h with
  | compare n o isCmp => exact ⟨n, o, isCmp⟩
  | _ => exact absurd rfl hne

theorem executesCompare_of_flag_ne {s t : State} (h : step s = .next t) (hne : t.flag ≠ s.flag) :
    ExecutesCompare s := by
  cases stepEffect_of_step h with
  | held => exact absurd rfl hne
  | fatal => exact absurd rfl hne
  | line w i _ hw hd he =>
    obtain ⟨n, o, rfl⟩ := he.isCmp_of_flag_ne hne
    exact ⟨w, n, o, hw, hd⟩

theorem flag_ne_unset_of_executesCompare {s t : State} (hc : ExecutesCompare s) (h : step s = .next t) :
    t.flag ≠ .unset := by
  obtain ⟨w, n, o, hw, hd⟩ := hc
  rw [step_of_ok hw hd] at h
  cases h
  exact compareFlag_ne_unset _ _

theorem step_flag_ne_unset {s t : State} (h : step s = .next t) (hs : s.flag ≠ .unset) : t.flag ≠ .unset := by
  by_cases hne : t.flag = s.flag
  · rwa [hne]
  · exact flag_ne_unset_of_executesCompare (executesCompare_of_flag_ne h hne) h

/-- From UNSET, one step sets the flag exactly by executing a CMP. -/
theorem step_flag_eq_unset_iff {s t : State} (hs : s.flag = .unset) (h : step s = .next t) :
    t.flag = .unset ↔ ¬ ExecutesCompare s := by
  constructor
  · exact fun ht hc => flag_ne_unset_of_executesCompare hc h ht
  · intro hc
    by_contra hne
    exact hc (executesCompare_of_flag_ne h (by rwa [hs]))

/-! ## Runs (R106) -/

theorem run_succ_of_step {s t : State} (h : step s = .next t) (k : Nat) : run (k + 1) s = run k t := by
  rw [run, h]

theorem run_succ_eq_next {k : Nat} {s t : State} (h : run (k + 1) s = .next t) :
    ∃ u, step s = .next u ∧ run k u = .next t := by
  cases hs : step s with
  | next u => exact ⟨u, rfl, by rwa [run_succ_of_step hs] at h⟩
  | fault r => simp [run, hs] at h
  | refused r => simp [run, hs] at h

theorem run_flag_ne_unset {k : Nat} {s t : State} (h : run k s = .next t) (hs : s.flag ≠ .unset) :
    t.flag ≠ .unset := by
  induction k generalizing s with
  | zero => cases h; exact hs
  | succ k ih =>
    obtain ⟨u, hu, hrun⟩ := run_succ_eq_next h
    exact ih hrun (step_flag_ne_unset hu hs)

theorem run_of_stopped {s : State} (hp : programWf s.prog = true) (hr : s.running = false) (k : Nat) :
    run k s = .next s := by
  induction k with
  | zero => rfl
  | succ k ih => rw [run_succ_of_step (step_of_halted hp hr), ih]

/-- The states of a run before its last are the first state and those of the run from the next one. -/
theorem forall_before_succ {s u : State} {k : Nat} {P : State → Prop} (h : step s = .next u) :
    (∀ j v, j < k + 1 → run j s = .next v → P v) ↔ P s ∧ ∀ j v, j < k → run j u = .next v → P v := by
  constructor
  · refine fun hall => ⟨hall 0 s (Nat.succ_pos k) rfl, fun j v hj hv => hall (j + 1) v (by omega) ?_⟩
    rwa [run_succ_of_step h]
  · rintro ⟨hs, hall⟩ j v hj hv
    cases j with
    | zero => cases hv; exact hs
    | succ j => exact hall j v (by omega) (by rwa [run_succ_of_step h] at hv)

/-- Along a run from UNSET the flag is UNSET as long as no CMP has executed (R30). -/
theorem run_flag_eq_unset_iff {k : Nat} {s t : State} (hs : s.flag = .unset) (h : run k s = .next t) :
    t.flag = .unset ↔ ∀ j u, j < k → run j s = .next u → ¬ ExecutesCompare u := by
  induction k generalizing s with
  | zero =>
    cases h
    exact iff_of_true hs fun j _ hj => absurd hj (Nat.not_lt_zero j)
  | succ k ih =>
    obtain ⟨u, hu, hrun⟩ := run_succ_eq_next h
    rw [forall_before_succ hu, ← step_flag_eq_unset_iff hs hu]
    by_cases hset : u.flag = .unset
    · rw [ih hset hrun, and_iff_right hset]
    · exact iff_of_false (run_flag_ne_unset hrun hset) fun hc => hset hc.1

end Sys2Proof.Machine
end

section
open Sys2Proof Sys2Proof.Machine

/-- Settles O20: induction over the steps; the first CMP sets the flag and no step unsets it. -/
theorem flagUnsetExactlyBeforeFirstCompare : Obligations.FlagUnsetExactlyBeforeFirstCompare :=
  fun _ _ _ hs h => run_flag_eq_unset_iff hs h

/-- Settles O18: the one effect that changes the flag is a CMP's, and `compareFlag` is never UNSET. -/
theorem flagWrittenByCompareOnly : Obligations.FlagWrittenByCompareOnly :=
  fun _ _ h => ⟨executesCompare_of_flag_ne h, fun hc => flag_ne_unset_of_executesCompare hc h, step_flag_ne_unset h⟩

/-- Settles O7: the step's equation on a fetched line. -/
theorem stepRunsDecodedInstruction : Obligations.StepRunsDecodedInstruction :=
  fun _ _ _ hw hd => step_of_ok hw hd

/-- Settles O8: a decode error is raised as its cause. -/
theorem stepRaisesDecodeErrors : Obligations.StepRaisesDecodeErrors :=
  fun _ _ hw => ⟨fun hd => fatalStep_of_raise (step_of_error hw hd), fun hd => fatalStep_of_raise (step_of_error hw hd)⟩

/-- Settles O9: the three routes are a reset, an advance and a jump, each to `pc = N`. -/
theorem fetchPastTheEndIsFatal : Obligations.FetchPastTheEndIsFatal := by
  refine ⟨fun s => fatalStep_of_pastEnd, fun strict => ?_, fun strict => ?_, fun strict => ?_⟩
  · exact fatalStep_of_pastEnd rfl rfl (Nat.zero_le _)
  · have hw : (construct [0x0B00000000000001] strict).Fetches 0x0B00000000000001 := ⟨rfl, rfl, rfl⟩
    have hd : decode 0x0B00000000000001 = .ok (.mov 0 (.imm 1)) := by decide
    exact ⟨_, step_of_ok hw hd, rfl, rfl, fatalStep_of_pastEnd rfl rfl (le_refl 1)⟩
  · have hw : (construct [0x0E00000000000000, 0x0100000000000000] strict).Fetches 0x0E00000000000000 := ⟨rfl, rfl, rfl⟩
    have hd : decode 0x0E00000000000000 = .ok (.b 0) := by decide
    have hl : labelIndex [0x0E00000000000000, 0x0100000000000000] 0 = some 2 := by decide
    refine ⟨_, (step_of_ok hw hd).trans ((exec_brInstr .b 0 _).trans
      (congrArg Host.Outcome.next (State.branchTo_of_labelIndex_eq_some hl .b))), rfl, rfl, ?_⟩
    exact fatalStep_of_pastEnd rfl rfl (le_refl 2)

/-- Settles O10: steps, edges and a reset, one lemma each. -/
theorem stoppedMachineStaysStopped : Obligations.StoppedMachineStaysStopped := by
  refine ⟨fun k s hp hr => run_of_stopped hp hr k, fun i s t hi hr h => ?_, fun i s hi => edge_of_reset s hi⟩
  obtain ⟨hc, -⟩ | ⟨-, -, hstep⟩ | ⟨-, -, -, rfl⟩ | ⟨-, -, -, rfl⟩ := edge_cases h
  · rw [hi] at hc; cases hc
  · rw [eq_of_step_of_stopped hr hstep]
    exact ⟨hr, rfl, rfl, rfl⟩
  · cases i.dbgSel <;> exact ⟨hr, rfl, rfl, rfl⟩
  · exact ⟨hr, rfl, rfl, rfl⟩

/-- Settles O11: the step's equation on a program that does not fit. -/
theorem tooLongProgramIsRefused : Obligations.TooLongProgramIsRefused :=
  fun _ h => step_of_tooLong h

/-- Settles O12: the step is total on programs that fit, and no effect writes an input. -/
theorem everyStepAnswersAndKeepsTheProgram : Obligations.EveryStepAnswersAndKeepsTheProgram := by
  intro s hp
  obtain ⟨t, ht⟩ := exists_step ((programWf_iff s.prog).mpr hp)
  exact ⟨t, ht, step_prog ht, step_strict ht⟩

/-- Settles O15: a cause that was not there is there by `raise` alone. -/
theorem fatalStepsArePrecise : Obligations.FatalStepsArePrecise := by
  intro s t c hf h hc
  rw [eq_raise_of_step_fault hf h hc]
  exact s.raise_fatalResult c
end

section
/-!
SUPPORT. The control signals of R85 steering the datapath of R206, against the instruction's update.
-/
namespace Sys2Proof.Machine

/-! ## A fatal condition while executing (R103) -/

/-- A shift raises its cause before any write. -/
theorem State.shiftUpdate_of_fault {s : State} {o : Op2} {c : FatalCause}
    (h : (if shiftInRange (s.val o) then none else some .shiftAmountOutOfRange) = some c) (f : Word → Nat → Word)
    (d n : Reg) : s.shiftUpdate f d n o = .fatal c := by
  unfold State.shiftUpdate
  split at h
  · cases h
  · cases h; exact if_neg ‹_›

/-- A branch raises its cause before it looks at the flag. -/
theorem State.branchUpdate_of_fault {s : State} {l : LabelId} {c : FatalCause}
    (h : (if (labelIndex s.prog l).isSome then none else some .unknownLabel) = some c) (o : BrOp) :
    s.branchUpdate o l = .fatal c := by
  unfold State.branchUpdate
  cases hl : labelIndex s.prog l with
  | none => rw [hl] at h; cases h; rfl
  | some t => rw [hl] at h; cases h

/-- The cause of the last row of R85 is what the instruction raises. -/
theorem update_of_executeFault {s : State} {i : Instr} {c : FatalCause} (h : executeFault s i = some c) :
    update s i = .fatal c := by
  cases i with
  | lsl d n o => exact State.shiftUpdate_of_fault h aluLsl d n
  | lsr d n o => exact State.shiftUpdate_of_fault h (aluLsr Config.lsrMode) d n
  | b l => exact State.branchUpdate_of_fault h .b
  | beq l => exact State.branchUpdate_of_fault h .beq
  | bne l => exact State.branchUpdate_of_fault h .bne
  | bgt l => exact State.branchUpdate_of_fault h .bgt
  | blt l => exact State.branchUpdate_of_fault h .blt
  | unk op =>
    simp only [executeFault] at h
    split at h
    · cases h; exact if_pos ‹_›
    · cases h
  | bad => cases h; rfl
  | _ => cases h

theorem exec_of_executeFault {s : State} {i : Instr} {c : FatalCause} (h : executeFault s i = some c) :
    exec i s = .next (s.raise c) := by
  rw [exec_eq_apply, update_of_executeFault h]; rfl

/-! ## The datapath (R206) -/

theorem aluOut_add (a b : Word) : aluOut (some .add) a b = aluAdd a b := (aluAdd_eq a b).symm

theorem aluOut_subtract (a b : Word) : aluOut (some .subtract) a b = aluSub a b := (aluSub_eq a b).symm

theorem aluOut_shiftLeft (a b : Word) : aluOut (some .shiftLeft) a b = aluLsl a b.toNat := (aluLsl_eq a b.toNat).symm

theorem aluOut_shiftRight (a b : Word) : aluOut (some .shiftRight) a b = aluLsr Config.lsrMode a b.toNat := by
  rw [aluOut]
  cases Config.lsrMode with
  | logical => exact (aluLsr_logical a b.toNat).symm
  | arithmetic => exact (aluLsr_arithmetic a b.toNat).symm

/-- An ALU line with two sources writes the ALU's output to its destination. -/
theorem datapath_aluControls (f : AluFn) (d n : Reg) (o : Op2) (s : State) :
    datapath (aluControls f d n o) s = (s.setReg d (aluOut (some f) (s.reg n) (s.val o))).advance := rfl

/-- The `pc` multiplexer of a branch whose label has an entry is the branch. -/
theorem datapath_branch {s : State} {l : LabelId}
    (h : (if (labelIndex s.prog l).isSome then none else some FatalCause.unknownLabel) = none) (o : BrOp) :
    s.branchTo o l = datapath { idleControls with pcSource := .target o l } s := by
  cases hl : labelIndex s.prog l with
  | none => rw [hl] at h; cases h
  | some t =>
    rw [State.branchTo_of_labelIndex_eq_some hl]
    simp only [datapath, Controls.pcOut, hl, Option.getD_some]
    rfl

/-- A shift by a legal amount is the datapath's. -/
theorem datapath_shift {s : State} {o : Op2} {f : Word → Nat → Word} {g : AluFn}
    (h : (if shiftInRange (s.val o) then none else some FatalCause.shiftAmountOutOfRange) = none)
    (hg : ∀ a b : Word, aluOut (some g) a b = f a b.toNat) (d n : Reg) :
    s.shift f d n o = datapath (aluControls g d n o) s := by
  have hr : shiftInRange (s.val o) = true := by
    by_contra hc
    rw [if_neg hc] at h; cases h
  rw [State.shift_of_inRange hr, datapath_aluControls, hg]

/-- An instruction that raises nothing is the datapath steered by its row of R85. -/
theorem exec_of_executeFault_none {s : State} {i : Instr} (h : executeFault s i = none) :
    exec i s = .next (datapath (controls i) s) := by
  cases i with
  | add d n o => rw [controls, datapath_aluControls, aluOut_add]; rfl
  | sub d n o => rw [controls, datapath_aluControls, aluOut_subtract]; rfl
  | lsl d n o => exact congrArg Host.Outcome.next (datapath_shift h aluOut_shiftLeft d n)
  | lsr d n o => exact congrArg Host.Outcome.next (datapath_shift h aluOut_shiftRight d n)
  | cmp n o => rw [exec, execCmp, compareFlag_eq]; rfl
  | b l => exact congrArg Host.Outcome.next (datapath_branch h .b)
  | beq l => exact congrArg Host.Outcome.next (datapath_branch h .beq)
  | bne l => exact congrArg Host.Outcome.next (datapath_branch h .bne)
  | bgt l => exact congrArg Host.Outcome.next (datapath_branch h .bgt)
  | blt l => exact congrArg Host.Outcome.next (datapath_branch h .blt)
  | unk op =>
    have hs : ¬ s.strict = true := by
      intro hc
      rw [executeFault, if_pos hc] at h; cases h
    rw [exec, execUnk, if_neg hs]; rfl
  | bad => cases h
  | _ => rfl

end Sys2Proof.Machine
end

section
/-!
SUPPORT. The causes of R170, each judged from the fetched word by itself, against the one the step raises.
-/
namespace Sys2Proof.Machine
open Sys2Proof.Claims

/-- The opcodes of BLANK, LABEL and the mnemonics, without the shifts and the branches. -/
def plainOpcode (op : BitVec 8) : Bool :=
  op.toNat ≤ 0x08 || (0x0B ≤ op.toNat && op.toNat ≤ 0x0D) || decide (op.toNat = 0x13)

section
variable {s : State} {w : IWord}

/-- The rules R79 and R80 let a decoded word pass. -/
theorem rules_of_decode {i : Instr} (h : decode w = .ok i) : ¬ mustBeZeroViolated w ∧ ¬ indexTooBig w := by
  have hv := decode_verdict w
  rw [h] at hv
  cases hv with
  | ok _ good small => exact ⟨good, small⟩

/-! What can apply to a word that passes R79 and R80, by its opcode. -/

section
variable (rules : ¬ mustBeZeroViolated w ∧ ¬ indexTooBig w)
include rules

/-- A line that is no branch and no shift has no cause left. -/
theorem not_applies_of_plain (hop : plainOpcode (opField w) = true) (c : FatalCause) : ¬ Applies s w c := by
  simp only [plainOpcode, Bool.or_eq_true, Bool.and_eq_true, decide_eq_true_eq] at hop
  cases c with
  | unknownMnemonic => rintro ⟨-, hlo, -⟩; omega
  | malformedOperand => exact not_or.mpr ⟨by omega, rules.1⟩
  | indexOutOfRange => exact rules.2
  | unknownLabel => rintro ⟨hb, -⟩; unfold isBr at hb; omega
  | shiftAmountOutOfRange => rintro ⟨hs, -⟩; unfold isShift at hs; omega
  | pcOutOfRange => exact id

theorem applies_iff_of_shift (hs : isShift w) (c : FatalCause) : Applies s w c ↔
    ((rawAmount s w).toInt < 0 ∨ 31 < (rawAmount s w).toInt) ∧ .shiftAmountOutOfRange = c := by
  have hop := hs
  unfold isShift at hop
  cases c with
  | unknownMnemonic => exact iff_of_false (by rintro ⟨-, hlo, -⟩; omega) (by simp)
  | malformedOperand => exact iff_of_false (not_or.mpr ⟨by omega, rules.1⟩) (by simp)
  | indexOutOfRange => exact iff_of_false rules.2 (by simp)
  | unknownLabel => exact iff_of_false (by rintro ⟨hb, -⟩; unfold isBr at hb; omega) (by simp)
  | shiftAmountOutOfRange => simp [Applies, hs]
  | pcOutOfRange => exact iff_of_false id (by simp)

theorem applies_iff_of_br (hb : isBr w) (c : FatalCause) : Applies s w c ↔
    labelIndex s.prog (pField w) = none ∧ .unknownLabel = c := by
  have hop := hb
  unfold isBr at hop
  cases c with
  | unknownMnemonic => exact iff_of_false (by rintro ⟨-, hlo, -⟩; omega) (by simp)
  | malformedOperand => exact iff_of_false (not_or.mpr ⟨by omega, rules.1⟩) (by simp)
  | indexOutOfRange => exact iff_of_false rules.2 (by simp)
  | unknownLabel => simp [Applies, hb]
  | shiftAmountOutOfRange => exact iff_of_false (by rintro ⟨hs, -⟩; unfold isShift at hs; omega) (by simp)
  | pcOutOfRange => exact iff_of_false id (by simp)

/-- Past the mnemonics the opcode decides: UNK by STRICT, BAD always. -/
theorem applies_iff_of_notMnemonic (hop : 0x14 ≤ (opField w).toNat) (c : FatalCause) : Applies s w c ↔
    (s.strict = true ∧ (opField w).toNat ≤ 0xFE ∧ .unknownMnemonic = c) ∨
    ((opField w).toNat = 0xFF ∧ .malformedOperand = c) := by
  cases c with
  | unknownMnemonic => simp [Applies, hop]
  | malformedOperand => simp [Applies, rules.1]
  | indexOutOfRange => exact iff_of_false rules.2 (by simp)
  | unknownLabel => exact iff_of_false (by rintro ⟨hb, -⟩; unfold isBr at hb; omega) (by simp)
  | shiftAmountOutOfRange => exact iff_of_false (by rintro ⟨hs, -⟩; unfold isShift at hs; omega) (by simp)
  | pcOutOfRange => exact iff_of_false id (by simp)

end

end

/-- The amount a shift's word names is the value of its operand 2. -/
theorem rawAmount_encAlu3 (s : State) (o : Alu3Op) (d n : Reg) (v : Op2) :
    rawAmount s (encAlu3 o d n v) = s.val v := by
  rw [rawAmount, encAlu3, kField_mkWord, pField_mkWord]
  cases v with
  | imm v => rfl
  | reg m =>
    change s.reg (Fin.ofNat 16 (BitVec.ofNat 32 m.val).toNat) = s.reg m
    rw [regPayload_toNat]
    congr 1
    exact Fin.ext (Nat.mod_eq_of_lt m.isLt)

theorem not_shiftInRange_iff (b : Word) : ¬ shiftInRange b = true ↔ b.toInt < 0 ∨ 31 < b.toInt := by
  simp only [shiftInRange, Bool.and_eq_true, decide_eq_true_eq]
  omega

/-- The word of a shift, of either kind, has the one cause of R127. -/
theorem applies_iff_of_shiftWord {s : State} {o : Alu3Op} {d n : Reg} {v : Op2} {c : FatalCause}
    (rules : ¬ mustBeZeroViolated (encAlu3 o d n v) ∧ ¬ indexTooBig (encAlu3 o d n v))
    (hs : isShift (encAlu3 o d n v)) : Applies s (encAlu3 o d n v) c ↔
      (if shiftInRange (s.val v) then none else some .shiftAmountOutOfRange) = some c := by
  rw [applies_iff_of_shift rules hs, rawAmount_encAlu3, ← not_shiftInRange_iff]
  cases shiftInRange (s.val v) <;> simp

/-- The word of a branch has the one cause of R174. -/
theorem applies_iff_of_brWord {s : State} {o : BrOp} {l : LabelId} {c : FatalCause}
    (rules : ¬ mustBeZeroViolated (encBr o l) ∧ ¬ indexTooBig (encBr o l)) (hb : isBr (encBr o l)) :
    Applies s (encBr o l) c ↔
      (if (labelIndex s.prog l).isSome then none else some .unknownLabel) = some c := by
  rw [applies_iff_of_br rules hb, encBr, pField_mkWord]
  cases labelIndex s.prog l <;> simp

/-- To a decoded word at most one cause applies, the one its execution raises. -/
theorem applies_iff_executeFault {s : State} {w : IWord} {i : Instr} (hd : decode w = .ok i) (c : FatalCause) :
    Applies s w c ↔ executeFault s i = some c := by
  have rules := rules_of_decode hd
  have plain {op : BitVec 8} (hop : opField w = op) (hp : plainOpcode op = true) (hf : executeFault s i = none) :
      Applies s w c ↔ executeFault s i = some c :=
    iff_of_false (not_applies_of_plain rules (hop ▸ hp) c) (by rw [hf]; simp)
  cases Decodes.of_decode hd with
  | mem o d a => cases o <;> exact plain (opField_mkWord ..) rfl rfl
  | alu3 o d n v =>
    cases o with
    | lsl => exact applies_iff_of_shiftWord rules (.inl (congrArg BitVec.toNat (opField_mkWord ..)))
    | lsr => exact applies_iff_of_shiftWord rules (.inr (congrArg BitVec.toNat (opField_mkWord ..)))
    | _ => exact plain (opField_mkWord ..) rfl rfl
  | alu2 o d v => cases o <;> exact plain (opField_mkWord ..) rfl rfl
  | cmp n v => exact plain (opField_mkWord ..) rfl rfl
  | br o l =>
    have hb : isBr (encBr o l) := by
      rw [isBr, encBr, opField_mkWord]; cases o <;> decide
    rw [applies_iff_of_brWord rules hb]
    cases o <;> rfl
  | halt => exact plain (opField_mkWord ..) rfl rfl
  | label _ op => exact plain op rfl rfl
  | blank _ op => exact plain op rfl rfl
  | unk _ op =>
    simp only [reservedOpcode, Bool.and_eq_true, decide_eq_true_eq] at op
    rw [applies_iff_of_notMnemonic rules op.1, executeFault]
    have : (opField w).toNat ≠ 0xFF := by omega
    cases s.strict <;> simp [op.2, this]
  | bad _ op =>
    have hn : (opField w).toNat = 0xFF := by rw [op]; rfl
    rw [applies_iff_of_notMnemonic rules (by omega), executeFault, hn]
    simp

/-- A decode error is the first cause in the order of R178. -/
theorem first_of_decode_error {s : State} {w : IWord} {e : DecodeError} (h : decode w = .error e) :
    Applies s w (decodeCause e) ∧ ∀ c, rank c < rank (decodeCause e) → ¬ Applies s w c := by
  have hv := decode_verdict w
  have hmnem : mustBeZeroViolated w ∨ indexTooBig w → (opField w).toNat ≤ 0x13 := by
    simp only [mustBeZeroViolated, indexTooBig, isMem, isAlu3, isAlu2, isCmp, isBr, isHalt]
    omega
  rw [h] at hv
  cases hv with
  | malformed bad =>
    refine ⟨.inr bad, fun c hc => ?_⟩
    have hop := hmnem (.inl bad)
    cases c with
    | pcOutOfRange => exact id
    | unknownMnemonic => rintro ⟨-, hlo, -⟩; omega
    | _ => simp [rank, decodeCause] at hc
  | index good big =>
    refine ⟨big, fun c hc => ?_⟩
    have hop := hmnem (.inr big)
    cases c with
    | pcOutOfRange => exact id
    | unknownMnemonic => rintro ⟨-, hlo, -⟩; omega
    | malformedOperand => exact not_or.mpr ⟨by omega, good⟩
    | _ => simp [rank, decodeCause] at hc

theorem rank_injective {c c' : FatalCause} (h : rank c = rank c') : c = c' := by
  revert h
  cases c <;> cases c' <;> decide

/-- The first cause that applies is one. -/
theorem first_unique {s : State} {w : IWord} {c c' : FatalCause} (hc : Applies s w c)
    (hfirst : ∀ d, rank d < rank c → ¬ Applies s w d) (hc' : Applies s w c')
    (hfirst' : ∀ d, rank d < rank c' → ¬ Applies s w d) : c = c' :=
  rank_injective (le_antisymm (not_lt.mp fun h => hfirst _ h hc') (not_lt.mp fun h => hfirst' _ h hc))

/-- UNK is the one line that raises UnknownMnemonic, and only when STRICT is 1. -/
theorem strict_of_step_unknownMnemonic {s t : State} (h : step s = .next t)
    (hc : t.fault = some .unknownMnemonic) : s.fault = some .unknownMnemonic ∨ s.strict = true := by
  obtain ⟨-, ⟨-, rfl⟩ | ⟨-, -, rfl⟩ | ⟨w, e, -, -, rfl⟩ | ⟨w, i, -, hd, hx⟩⟩ := step_cases h
  · exact .inl hc
  · cases hc
  · cases e <;> cases hc
  · cases hf : executeFault s i with
    | none =>
      rw [exec_of_executeFault_none hf] at hx
      cases hx; exact .inl hc
    | some c =>
      rw [exec_of_executeFault hf] at hx
      cases hx; cases hc
      exact .inr ((applies_iff_executeFault hd _).mpr hf).1

end Sys2Proof.Machine
end

section
open Sys2Proof Sys2Proof.Machine

/-- Settles O14: a cause of the last row of R85 is raised, else the update is the datapath's. -/
theorem stepIsTheDatapathOrFatal : Obligations.StepIsTheDatapathOrFatal := by
  intro s w i hw hd
  rw [step_of_ok hw hd]
  refine ⟨fun c hc => fatalStep_of_raise ?_, exec_of_executeFault_none⟩
  rw [step_of_ok hw hd, exec_of_executeFault hc]

/-- Settles O13: a decode error is the first cause of its word, and a decoded word has the cause of its execution and no
other. -/
theorem firstApplicableCauseIsRaised : Obligations.FirstApplicableCauseIsRaised := by
  intro s hp hr
  refine ⟨fatalStep_of_pastEnd hp hr, fun w hl => ?_⟩
  have hw : s.Fetches w := ⟨hp, hr, hl⟩
  cases hd : decode w with
  | error e =>
    obtain ⟨happ, hfirst⟩ := first_of_decode_error (s := s) hd
    refine ⟨fun c hc hc' => ?_, fun hnone => absurd happ (hnone _)⟩
    rw [first_unique hc hc' happ hfirst]
    exact fatalStep_of_raise (step_of_error hw hd)
  | ok i =>
    refine ⟨fun c hc _ => fatalStep_of_raise ?_, fun hnone => ?_⟩
    · rw [step_of_ok hw hd, exec_of_executeFault ((applies_iff_executeFault hd c).mp hc)]
    · have hf : executeFault s i = none :=
        Option.eq_none_iff_forall_ne_some.mpr fun c hc => hnone c ((applies_iff_executeFault hd c).mpr hc)
      exact ⟨_, (step_of_ok hw hd).trans (exec_of_executeFault_none hf), rfl⟩

/-- Settles O47: UNK by the two values of STRICT, and no other line raises its cause. -/
theorem unknownMnemonicByStrict : Obligations.UnknownMnemonicByStrict := by
  refine ⟨fun op s => ⟨fun hs => ⟨s.advance, ?_, s.advance_pcResult⟩, fun hs => ⟨_, ?_, s.raise_fatalResult _⟩⟩,
    fun s t hs h hc => ?_⟩
  · rw [exec, execUnk, hs]; rfl
  · rw [exec, execUnk, hs]; rfl
  · exact (strict_of_step_unknownMnemonic h hc).resolve_right (by simp [hs])
end

section
/-!
SUPPORT. The label index of a program: its entry for a label is the line after the label's last declaration (R92).
-/
namespace Sys2Proof.Machine

/-- A word declares the label it decodes to. -/
theorem labelOfWord_eq_some {w : IWord} {l : LabelId} : labelOfWord w = some l ↔ decode w = .ok (.label l) := by
  unfold labelOfWord
  split
  next k h => rw [h]; simp
  next h => exact iff_of_false (by simp) (h l)

/-- The index of a whole program, at either level, from the place of a label's last declaration. -/
theorem lookup_buildLabelIndex_empty {A L : Type} [DecidableEq L] (declares : A → Option L) (l : L) (xs : List A) :
    (buildLabelIndex declares 0 xs []).lookup l =
      (lastDecl declares l xs).map fun j => BitVec.ofNat 16 (j + 1) := by
  rw [lookup_buildLabelIndex]
  cases lastDecl declares l xs with
  | none => rfl
  | some j => simp only [Nat.zero_add, Option.map_some]

theorem labelIndex_eq (prog : List IWord) (l : LabelId) :
    labelIndex prog l = (lastDecl labelOfWord l prog).map fun j => BitVec.ofNat 16 (j + 1) :=
  lookup_buildLabelIndex_empty labelOfWord l prog

/-- An index of a line of a program that fits does not wrap (R12). -/
theorem succ_toNat_of_lt {prog : List IWord} (hp : programWf prog = true) {j : Nat} (hj : j < prog.length) :
    (BitVec.ofNat 16 (j + 1)).toNat = j + 1 := by
  have := (programWf_iff prog).mp hp
  exact Nat.mod_eq_of_lt (by omega)

/-- The last declaration is the one that no other follows. -/
theorem lastDecl_eq_some_iff {A L : Type} [DecidableEq L] {declares : A → Option L} {l : L} {xs : List A} {j : Nat} :
    lastDecl declares l xs = some j ↔
      (∃ x, xs[j]? = some x ∧ declares x = some l) ∧ ∀ k x, j < k → xs[k]? = some x → declares x ≠ some l := by
  refine ⟨lastDecl_some, fun ⟨⟨x, hx, hd⟩, hlast⟩ => ?_⟩
  cases h : lastDecl declares l xs with
  | none => exact absurd hd (lastDecl_none h x (List.mem_of_getElem? hx))
  | some k =>
    obtain ⟨⟨y, hy, hdy⟩, hlast'⟩ := lastDecl_some h
    obtain hlt | heq | hgt := lt_trichotomy j k
    · exact absurd hdy (hlast k y hlt hy)
    · rw [heq]
    · exact absurd hd (hlast' j x hgt hx)

theorem lastDecl_eq_none_iff {A L : Type} [DecidableEq L] {declares : A → Option L} {l : L} {xs : List A} :
    lastDecl declares l xs = none ↔ ∀ x ∈ xs, declares x ≠ some l := by
  refine ⟨lastDecl_none, fun h => ?_⟩
  cases hl : lastDecl declares l xs with
  | none => rfl
  | some j =>
    obtain ⟨⟨x, hx, hd⟩, -⟩ := lastDecl_some hl
    exact absurd hd (h x (List.mem_of_getElem? hx))

/-- The entry of a label is a line index of the program or its length (R12). -/
theorem labelIndex_le {prog : List IWord} (hp : programWf prog = true) {l : LabelId} {t : LineIndex}
    (h : labelIndex prog l = some t) : t.toNat ≤ prog.length := by
  rw [labelIndex_eq, Option.map_eq_some_iff] at h
  obtain ⟨j, hj, rfl⟩ := h
  obtain ⟨⟨x, hx, -⟩, -⟩ := lastDecl_some hj
  have hlt : j < prog.length := (List.getElem?_eq_some_iff.mp hx).1
  rw [succ_toNat_of_lt hp hlt]
  exact hlt

/-- The label index is the line after the last declaration (R92). -/
theorem labelIndex_eq_some_iff {prog : List IWord} (hp : programWf prog = true) {l : LabelId} {t : LineIndex} :
    labelIndex prog l = some t ↔ ∃ i w, prog[i]? = some w ∧ decode w = .ok (.label l) ∧ t.toNat = i + 1 ∧
      ∀ j w', i < j → prog[j]? = some w' → decode w' ≠ .ok (.label l) := by
  simp only [labelIndex_eq, Option.map_eq_some_iff, lastDecl_eq_some_iff, labelOfWord_eq_some, ne_eq]
  constructor
  · rintro ⟨i, ⟨⟨w, hw, hd⟩, hlast⟩, rfl⟩
    exact ⟨i, w, hw, hd, succ_toNat_of_lt hp (List.getElem?_eq_some_iff.mp hw).1, hlast⟩
  · rintro ⟨i, w, hw, hd, ht, hlast⟩
    refine ⟨i, ⟨⟨w, hw, hd⟩, hlast⟩, BitVec.eq_of_toNat_eq ?_⟩
    rw [succ_toNat_of_lt hp (List.getElem?_eq_some_iff.mp hw).1, ht]

theorem labelIndex_eq_none_iff {prog : List IWord} {l : LabelId} :
    labelIndex prog l = none ↔ ∀ w ∈ prog, decode w ≠ .ok (.label l) := by
  simp only [labelIndex_eq, Option.map_eq_none_iff, lastDecl_eq_none_iff, ne_eq, labelOfWord_eq_some]

end Sys2Proof.Machine
end

section
open Sys2Proof Sys2Proof.Machine

/-- Settles O53: the entry is computed from the place of the last declaration. -/
theorem labelIndexIsTheLastDeclaration : Obligations.LabelIndexIsTheLastDeclaration :=
  fun _ _ hp => ⟨fun _ => labelIndex_eq_some_iff hp, labelIndex_eq_none_iff⟩
end

section
/-!
SUPPORT. The invariant of R30 through steps and edges.
-/
namespace Sys2Proof.Machine

/-- `raise` stops the machine, so the invariant asks nothing of FAULT. -/
theorem State.Inv.raise {s : State} (h : s.Inv) (c : FatalCause) : (s.raise c).Inv :=
  ⟨h.memWf, h.progWf, h.pcLe, fun _ => rfl⟩

/-- A line's effect keeps the invariant: `pc` goes to the next line, to a label's entry, or stays. -/
theorem Effect.inv {i : Instr} {s t : State} {w : IWord} (he : Effect i s t) (hw : s.Fetches w) (h : s.Inv) :
    t.Inv := by
  have hnext : (s.pc + 1).toNat ≤ s.prog.length := by
    rw [hw.succ_toNat]; exact hw.pc_lt
  cases he with
  | fatal c => exact h.raise c
  | register d v => exact ⟨h.memWf, h.progWf, hnext, h.faultStops⟩
  | store d a => exact ⟨State.setMem_wf h.memWf a _, h.progWf, hnext, h.faultStops⟩
  | compare n o => exact ⟨h.memWf, h.progWf, hnext, h.faultStops⟩
  | jump o l t _ _ hit => exact ⟨h.memWf, h.progWf, labelIndex_le h.progWf hit, h.faultStops⟩
  | advance => exact ⟨h.memWf, h.progWf, hnext, h.faultStops⟩
  | stop => exact ⟨h.memWf, h.progWf, h.pcLe, fun _ => rfl⟩

theorem step_inv {s t : State} (h : s.Inv) (hs : step s = .next t) : t.Inv := by
  cases stepEffect_of_step hs with
  | held => exact h
  | fatal c => exact h.raise c
  | line w i _ hw _ he => exact he.inv hw h

/-- A machine constructed with a program that fits satisfies the invariant (R29). -/
theorem construct_inv {prog : List IWord} (strict : Bool) (fits : programWf prog = true) :
    (construct prog strict).Inv :=
  ⟨State.reset_memWf, fits, Nat.zero_le _, fun h => absurd rfl h⟩

theorem State.Inv.preload {s : State} (h : s.Inv) (sel : Bool) (addr : BitVec 8) (v : Word) :
    (s.preload sel addr v).Inv := by
  cases sel with
  | false => exact ⟨h.memWf, h.progWf, h.pcLe, h.faultStops⟩
  | true => exact ⟨State.setMem_wf h.memWf _ v, h.progWf, h.pcLe, h.faultStops⟩

theorem edge_inv {i : Inputs} {s t : State} (h : s.Inv) (he : edge i s = .next t) : t.Inv := by
  obtain ⟨-, rfl⟩ | ⟨-, -, hs⟩ | ⟨-, -, -, rfl⟩ | ⟨-, -, -, rfl⟩ := edge_cases he
  · exact construct_inv s.strict h.progWf
  · exact step_inv h hs
  · exact h.preload _ _ _
  · exact h

theorem Reachable.inv {s : State} (h : Reachable s) : s.Inv := by
  induction h with
  | construct prog strict fits => exact construct_inv strict fits
  | edge i s t _ goes ih => exact edge_inv ih goes

end Sys2Proof.Machine
end

section
open Sys2Proof Sys2Proof.Machine

/-- Settles O25: the invariant through each effect of a line. -/
theorem invariantKeptByEveryStep : Obligations.InvariantKeptByEveryStep :=
  fun _ _ h hs => step_inv h hs

/-- Settles O26, by induction on how the state was reached. -/
theorem reachableStatesSatisfyInvariant : Obligations.ReachableStatesSatisfyInvariant :=
  fun _ h => h.inv

/-- Settles O27: the reset state is the machine constructed with the empty program. -/
theorem resetSatisfiesInvariant : Obligations.ResetSatisfiesInvariant :=
  ⟨construct_inv false rfl, fun _ strict fits => construct_inv strict fits⟩
end

section
/-!
SUPPORT. A data word through edges (R46), the ports (R26 to R29), and the canonical form of the memory as data.
-/
namespace Sys2Proof.Machine
open Sys2Proof.Claims

theorem edge_memWf {i : Inputs} {s t : State} (h : Memory.wf s.mem = true) (he : edge i s = .next t) :
    Memory.wf t.mem = true := by
  obtain ⟨-, rfl⟩ | ⟨-, -, hs⟩ | ⟨-, -, -, rfl⟩ | ⟨-, -, -, rfl⟩ := edge_cases he
  · exact State.reset_memWf
  · cases stepEffect_of_step hs with
    | line w i _ _ _ he =>
      cases he with
      | store d a => exact State.setMem_wf h a _
      | _ => exact h
    | _ => exact h
  · cases i.dbgSel with
    | false => exact h
    | true => exact State.setMem_wf h _ _
  · exact h

/-- An instruction that is no STR leaves every data word. -/
theorem exec_memWord_of_ne_str {j : Instr} {s t : State} (h : Memory.wf s.mem = true) (hx : exec j s = .next t)
    (hj : ∀ d b, j ≠ .str d b) (a : MemIx) : t.memWord a = s.memWord a := by
  by_contra hne
  obtain ⟨d, hstr, -⟩ := (exec_effect_of hx).store_of_memWord_ne h hne
  exact hj d a hstr

/-- A data word after the edge of a step (R19). -/
theorem step_memWord {i : Inputs} {s t : State} (hr : i.rst = false) (hse : i.stepEn = true)
    (h : Memory.wf s.mem = true) (hs : step s = .next t) (a : MemIx) :
    t.memWord a = wordAfter i s a (s.memWord a) := by
  rw [wordAfter, hr, hse]
  obtain ⟨-, ⟨hrun, rfl⟩ | ⟨hrun, hf, rfl⟩ | ⟨w, e, hw, hd, rfl⟩ | ⟨w, j, hw, hd, hx⟩⟩ := step_cases hs
  · rw [hrun]; rfl
  · have hf : s.prog[s.pc.toNat]? = none := hf
    rw [hrun, hf]; rfl
  · rw [hw.running, hw.line, Option.map_some, hd]; rfl
  · rw [hw.running, hw.line, Option.map_some, hd]
    cases j with
    | str d b =>
      cases hx
      change _ = if b = a then s.reg d else s.memWord a
      exact (State.memWord_setMem h b a _).trans (if_congr eq_comm rfl rfl)
    | _ => exact exec_memWord_of_ne_str h hx (by simp) a

theorem preload_memWord {s : State} (h : Memory.wf s.mem = true) (addr : BitVec 8) (v : Word) (a : MemIx) :
    (s.preload true addr v).memWord a = if a.val = addr.toNat then v else s.memWord a := by
  change (s.setMem (dbgMem addr) v).memWord a = _
  rw [State.memWord_setMem h]
  exact if_congr Fin.ext_iff rfl rfl

/-- A data word after one edge (R46). -/
theorem edge_memWord {i : Inputs} {s t : State} (h : Memory.wf s.mem = true) (he : edge i s = .next t) (a : MemIx) :
    t.memWord a = wordAfter i s a (s.memWord a) := by
  obtain ⟨hr, rfl⟩ | ⟨hr, hs, hstep⟩ | ⟨hr, hs, hw, rfl⟩ | ⟨hr, hs, hw, rfl⟩ := edge_cases he
  · rw [wordAfter, hr]; rfl
  · exact step_memWord hr hs h hstep a
  · rw [wordAfter, hr, hs, hw]
    cases i.dbgSel with
    | false => rfl
    | true =>
      change _ = if (i.dbgAddr.toNat == a.val) = true then i.dbgWdata else s.memWord a
      rw [preload_memWord h]
      exact if_congr (eq_comm.trans beq_iff_eq.symm) rfl rfl
  · rw [wordAfter, hr, hs, hw]; rfl

theorem edges_cons_eq_next {i : Inputs} {is : List Inputs} {s t : State} (h : edges (i :: is) s = .next t) :
    ∃ u, edge i s = .next u ∧ edges is u = .next t := by
  cases he : edge i s with
  | next u => exact ⟨u, rfl, by simpa [edges, he] using h⟩
  | fault r => simp [edges, he] at h
  | refused r => simp [edges, he] at h

theorem edges_memWord {is : List Inputs} {s t : State} (h : Memory.wf s.mem = true) (he : edges is s = .next t)
    (a : MemIx) : t.memWord a = wordAfterAll is s a (s.memWord a) := by
  induction is generalizing s with
  | nil => cases he; rfl
  | cons i is ih =>
    obtain ⟨u, hu, hrest⟩ := edges_cons_eq_next he
    rw [ih (edge_memWf h hu) hrest, edge_memWord h hu, wordAfterAll, hu]

/-! ## The canonical form (log 1) -/

/-- The first listed word is not what an unlisted one reads as. -/
theorem Memory.wfFrom_cons {lo b : Nat} {w : Word} {m : Memory} (h : Memory.wfFrom lo ((b, w) :: m) = true) :
    lo ≤ b ∧ b < 256 ∧ w ≠ Memory.unlisted ∧ Memory.wfFrom (b + 1) m = true := by
  simpa [Memory.wfFrom, and_assoc] using h

/-- In canonical form a memory that lists a first word reads otherwise than one whose words all begin after it. -/
theorem Memory.read_ne_of_lt {lo b : Nat} {w : Word} {m m' : Memory} (hw : w ≠ Memory.unlisted)
    (h' : Memory.wfFrom lo m' = true) (hlt : b < lo) : Memory.read ((b, w) :: m) b ≠ Memory.read m' b := by
  rw [Memory.read_cons, if_pos rfl, Memory.read_below h' hlt]
  exact hw

/-- Canonical memories that read alike are alike, entry by entry. -/
theorem Memory.eq_of_read_eq {m m' : Memory} {lo lo' : Nat} (h : Memory.wfFrom lo m = true)
    (h' : Memory.wfFrom lo' m' = true) (heq : ∀ a < 256, Memory.read m a = Memory.read m' a) : m = m' := by
  induction m generalizing m' lo lo' with
  | nil =>
    cases m' with
    | nil => rfl
    | cons e' m' =>
      obtain ⟨-, hb, hw, -⟩ := Memory.wfFrom_cons h'
      exact absurd (heq e'.1 hb).symm (Memory.read_ne_of_lt (lo := e'.1 + 1) hw rfl (Nat.lt_succ_self _))
  | cons e m ih =>
    obtain ⟨b, w⟩ := e
    obtain ⟨-, hb, hw, hm⟩ := Memory.wfFrom_cons h
    cases m' with
    | nil => exact absurd (heq b hb) (Memory.read_ne_of_lt (lo := b + 1) hw rfl (Nat.lt_succ_self _))
    | cons e' m' =>
      obtain ⟨b', w'⟩ := e'
      obtain ⟨-, hb', hw', hm'⟩ := Memory.wfFrom_cons h'
      have hbb : b = b' := by
        obtain hlt | heqb | hgt := lt_trichotomy b b'
        · exact absurd (heq b hb) (Memory.read_ne_of_lt (lo := b + 1) hw
            (by simp [Memory.wfFrom, hb', hw', hm']; omega) (Nat.lt_succ_self _))
        · exact heqb
        · exact absurd (heq b' hb').symm (Memory.read_ne_of_lt (lo := b' + 1) hw'
            (by simp [Memory.wfFrom, hb, hw, hm]; omega) (Nat.lt_succ_self _))
      subst hbb
      have hww : w = w' := by simpa [Memory.read_cons] using heq b hb
      subst hww
      rw [ih hm hm' fun a ha => ?_]
      by_cases hab : b = a
      · subst hab
        rw [Memory.read_below hm (Nat.lt_succ_self _), Memory.read_below hm' (Nat.lt_succ_self _)]
      · simpa [Memory.read_cons, hab] using heq a ha

/-! ## The ports (R15, R17, R27) -/

/-- The preload and inspection ports name a register by the low four bits of the address. -/
theorem dbgReg_val (addr : BitVec 8) : (dbgReg addr).val = addr.toNat % 16 := by
  simp [dbgReg, BitVec.extractLsb'_toNat]

theorem preload_reg (s : State) (addr : BitVec 8) (v : Word) (r : Reg) :
    (s.preload false addr v).reg r = if r.val = addr.toNat % 16 then v else s.reg r := by
  change (s.setReg (dbgReg addr) v).reg r = _
  rw [State.reg_setReg, ← dbgReg_val]
  exact if_congr Fin.ext_iff rfl rfl

/-- The two bits of the flag latch tell its four values apart (R15). -/
theorem flagBits_eq_iff (f g : Flag) : f.bits = g.bits ↔ f = g := by
  refine ⟨fun h => ?_, congrArg _⟩
  revert h
  cases f <;> cases g <;> decide

/-- The codes of R17 tell the causes apart, and NONE from them. -/
theorem faultCode_eq_iff (c d : Option FatalCause) : faultCode c = faultCode d ↔ c = d := by
  refine ⟨fun h => ?_, congrArg _⟩
  revert h
  rcases c with _ | ⟨⟨⟩⟩ <;> rcases d with _ | ⟨⟨⟩⟩ <;> decide

theorem inspect_reg {s : State} {addr : BitVec 8} {r : Reg} (h : r.val = addr.toNat % 16) :
    s.inspect false addr = s.reg r :=
  congrArg s.reg (Fin.ext ((dbgReg_val addr).trans h.symm))

theorem inspect_mem {s : State} {addr : BitVec 8} {a : MemIx} (h : a.val = addr.toNat) :
    s.inspect true addr = s.memWord a :=
  congrArg s.memWord (Fin.ext h.symm)

theorem lblId_of_line {s : State} {w : IWord} (h : s.prog[s.pc.toNat]? = some w) : s.lblId = some (pField w) :=
  congrArg (Option.map pField) h

theorem lblId_of_pastEnd {s : State} (h : s.prog.length ≤ s.pc.toNat) : s.lblId = none :=
  congrArg (Option.map pField) (List.getElem?_eq_none h)

end Sys2Proof.Machine
end

section
open Sys2Proof Sys2Proof.Machine

/-- Settles O31: each edge leaves in a word what R46 says, carried along the edges by induction. -/
theorem dataWordIsItsLatestWrite : Obligations.DataWordIsItsLatestWrite :=
  fun _ _ _ a h he => edges_memWord h he a

/-- Settles O28: the edge constructs the machine anew. -/
theorem resetTakesTheResetValues : Obligations.ResetTakesTheResetValues :=
  fun _ s hi => ⟨s.resetEdge, edge_of_reset s hi, State.reset_reg, State.reset_memWord, rfl, rfl, rfl, rfl, rfl, rfl⟩

/-- Settles O29: the four clauses are the cases of `edge`, the two writes those of `State.preload`. -/
theorem preloadWritesOneCell : Obligations.PreloadWritesOneCell := by
  intro i s hr
  refine ⟨fun hs => ?_, fun hs hw => ?_, fun hs hw hsel => ?_, fun hs hw hsel hwf => ?_⟩
  · simp [edge, hr, hs]
  · simp [edge, hr, hs, hw]
  · refine ⟨s.preload false i.dbgAddr i.dbgWdata, by simp [edge, hr, hs, hw, hsel], preload_reg s _ _, ?_⟩
    exact ⟨fun _ => rfl, rfl, rfl, rfl, rfl, rfl, rfl⟩
  · refine ⟨s.preload true i.dbgAddr i.dbgWdata, by simp [edge, hr, hs, hw, hsel], preload_memWord hwf _ _, ?_⟩
    exact ⟨fun _ => rfl, rfl, rfl, rfl, rfl, rfl, rfl⟩

/-- Settles O30: each output is a field of the state, and the codes of flag and FAULT are one to one. -/
theorem outputsShowTheState : Obligations.OutputsShowTheState := by
  intro s sel addr
  have flag := flagBits_eq_iff s.flag
  have fault := faultCode_eq_iff s.fault
  refine ⟨?_, ?_, rfl, rfl, fun w => lblId_of_line, lblId_of_pastEnd, rfl, flag .unset, flag .equal, flag .less,
    flag .greater, fault none, fault (some .pcOutOfRange), fault (some .unknownMnemonic),
    fault (some .malformedOperand), fault (some .indexOutOfRange), fault (some .unknownLabel),
    fault (some .shiftAmountOutOfRange)⟩
  · rintro r hr rfl; exact inspect_reg hr
  · rintro a ha rfl; exact inspect_mem ha

/-- Settles O32, by induction on both lists: the first listed words must agree. -/
theorem equalWordsAreEqualMemories : Obligations.EqualWordsAreEqualMemories :=
  fun _ _ h h' heq => Memory.eq_of_read_eq h h' fun a ha => heq ⟨a, ha⟩
end

section
/-!
SUPPORT. What a step writes (R10, R14, R206) and what an instruction reads (R11, R14): the frame of each effect, and the
fields that `update` does not look at.
-/
namespace Sys2Proof.Machine
open Sys2Proof.Claims

/-! ## At most one cell (R206) -/

/-- `t` differs from `s` in at most one register, data word or flag, the other two kinds being untouched. -/
inductive OneCell (s t : State) : Prop where
  | none (regs : ∀ r, t.reg r = s.reg r) (mem : ∀ a, t.memWord a = s.memWord a) (flag : t.flag = s.flag)
  | register (d : Reg) (regs : ∀ r, r ≠ d → t.reg r = s.reg r) (mem : ∀ a, t.memWord a = s.memWord a)
      (flag : t.flag = s.flag) (runs : t.running = s.running)
  | word (c : MemIx) (regs : ∀ r, t.reg r = s.reg r) (mem : ∀ a, a ≠ c → t.memWord a = s.memWord a)
      (flag : t.flag = s.flag) (runs : t.running = s.running)
  | flag (regs : ∀ r, t.reg r = s.reg r) (mem : ∀ a, t.memWord a = s.memWord a) (runs : t.running = s.running)

theorem Effect.oneCell {i : Instr} {s t : State} (h : Effect i s t) (hm : Memory.wf s.mem = true) : OneCell s t := by
  cases h with
  | register d v => exact .register d (s.setReg_advance_regResult d v).otherRegs (fun _ => rfl) rfl rfl
  | store d a =>
    have hmem := State.setMem_advance_memResult hm a (s.reg d)
    exact .word a hmem.regs hmem.otherWords rfl rfl
  | compare => exact .flag (fun _ => rfl) (fun _ => rfl) rfl
  | fatal => exact .none (fun _ => rfl) (fun _ => rfl) rfl
  | jump => exact .none (fun _ => rfl) (fun _ => rfl) rfl
  | advance => exact .none (fun _ => rfl) (fun _ => rfl) rfl
  | stop => exact .none (fun _ => rfl) (fun _ => rfl) rfl

/-- A step changes at most one cell, and none when it stops the machine. -/
theorem step_oneCell {s t : State} (hm : Memory.wf s.mem = true) (h : step s = .next t) :
    OneCell s t ∧ (t.running = false →
      (∀ r, t.reg r = s.reg r) ∧ (∀ a, t.memWord a = s.memWord a) ∧ t.flag = s.flag) := by
  cases stepEffect_of_step h with
  | held => exact ⟨.none (fun _ => rfl) (fun _ => rfl) rfl, fun _ => ⟨fun _ => rfl, fun _ => rfl, rfl⟩⟩
  | fatal => exact ⟨.none (fun _ => rfl) (fun _ => rfl) rfl, fun _ => ⟨fun _ => rfl, fun _ => rfl, rfl⟩⟩
  | line w i _ hw _ he =>
    have hcell := he.oneCell hm
    refine ⟨hcell, fun hstop => ?_⟩
    have hcleared : t.running ≠ s.running := by rw [hstop, hw.running]; decide
    cases hcell with
    | none regs mem flag => exact ⟨regs, mem, flag⟩
    | register _ _ _ _ runs => exact absurd runs hcleared
    | word _ _ _ _ runs => exact absurd runs hcleared
    | flag _ _ runs => exact absurd runs hcleared

/-- What R206 says of two cells that changed. -/
theorem OneCell.at_most_one {s t : State} (h : OneCell s t) :
    (∀ r q, t.reg r ≠ s.reg r → t.reg q ≠ s.reg q → r = q) ∧
    (∀ a b, t.memWord a ≠ s.memWord a → t.memWord b ≠ s.memWord b → a = b) ∧
    (∀ r, t.reg r ≠ s.reg r → (∀ a, t.memWord a = s.memWord a) ∧ t.flag = s.flag) ∧
    (∀ a, t.memWord a ≠ s.memWord a → t.flag = s.flag) := by
  cases h with
  | none regs mem flag =>
    exact ⟨fun r _ hr => absurd (regs r) hr, fun a _ ha => absurd (mem a) ha, fun r hr => absurd (regs r) hr,
      fun _ _ => flag⟩
  | register d regs mem flag =>
    have only : ∀ r, t.reg r ≠ s.reg r → r = d := fun r hr => not_not.mp fun hne => hr (regs r hne)
    exact ⟨fun r q hr hq => (only r hr).trans (only q hq).symm, fun a _ ha => absurd (mem a) ha, fun _ _ => ⟨mem, flag⟩,
      fun _ _ => flag⟩
  | word c regs mem flag =>
    have only : ∀ a, t.memWord a ≠ s.memWord a → a = c := fun a ha => not_not.mp fun hne => ha (mem a hne)
    exact ⟨fun r _ hr => absurd (regs r) hr, fun a b ha hb => (only a ha).trans (only b hb).symm,
      fun r hr => absurd (regs r) hr, fun _ _ => flag⟩
  | flag regs mem =>
    exact ⟨fun r _ hr => absurd (regs r) hr, fun a _ ha => absurd (mem a) ha, fun r hr => absurd (regs r) hr,
      fun a ha => absurd (mem a) ha⟩

/-! ## Registers (R10, R11) -/

/-- The one effect that changes a register is a write to the destination. -/
theorem Effect.dest_of_reg_ne {i : Instr} {s t : State} {r : Reg} (h : Effect i s t) (hne : t.reg r ≠ s.reg r) :
    dest i = some r := by
  cases h with
  | register d v writes =>
    have hrd : r = d := not_not.mp fun hc => hne ((s.setReg_advance_regResult d v).otherRegs r hc)
    rw [hrd]; exact writes
  | _ => exact absurd rfl hne

theorem step_reg_ne {s t : State} {r : Reg} (h : step s = .next t) (hne : t.reg r ≠ s.reg r) :
    ∃ w i, s.Fetches w ∧ decode w = .ok i ∧ dest i = some r := by
  cases stepEffect_of_step h with
  | held => exact absurd rfl hne
  | fatal => exact absurd rfl hne
  | line w i _ hw hd he => exact ⟨w, i, hw, hd, he.dest_of_reg_ne hne⟩

theorem State.val_setReg_of_notMem {s : State} {r : Reg} {o : Op2} (h : r ∉ op2Sources o) (v : Word) :
    (s.setReg r v).val o = s.val o :=
  State.val_setReg_of_ne (fun ho => h (by simp [ho, op2Sources])) v

/-- The update of an instruction does not depend on a register it does not read. -/
theorem update_setReg {i : Instr} {r : Reg} (h : r ∉ sources i) (s : State) (v : Word) :
    update (s.setReg r v) i = update s i := by
  have alu {n : Reg} {o : Op2} (hn : r ∉ n :: op2Sources o) :
      (s.setReg r v).reg n = s.reg n ∧ (s.setReg r v).val o = s.val o :=
    ⟨s.reg_setReg_ne v (Ne.symm (List.ne_of_not_mem_cons hn)),
      State.val_setReg_of_notMem (List.not_mem_of_not_mem_cons hn) v⟩
  cases i with
  | str d a => rw [update, update, s.reg_setReg_ne v (Ne.symm (List.ne_of_not_mem_cons h))]
  | add | sub | and | orr | eor | cmp => rw [update, update, (alu h).1, (alu h).2]
  | lsl | lsr => simp only [update, State.shiftUpdate, (alu h).1, (alu h).2]
  | mov | mvn => rw [update, update, State.val_setReg_of_notMem h]
  | _ => rfl

/-- An update treats all but register `r` alike whatever `r` holds, and `r` itself is left or written. -/
theorem Update.apply_setReg (e : Update) (s : State) (r : Reg) (v : Word) :
    (∀ q, q ≠ r → (e.apply (s.setReg r v)).reg q = (e.apply s).reg q) ∧
    ((e.apply (s.setReg r v)).reg r = (e.apply s).reg r ∨
      ((e.apply s).reg r = s.reg r ∧ (e.apply (s.setReg r v)).reg r = v)) := by
  cases e with
  | register d u =>
    simp only [Update.apply, State.advance_reg, State.reg_setReg]
    refine ⟨fun q hq => by rw [if_neg hq], ?_⟩
    by_cases hrd : r = d
    · exact .inl (by rw [if_pos hrd, if_pos hrd])
    · exact .inr (by simp [hrd])
  | _ => exact ⟨fun q hq => s.reg_setReg_ne v hq, .inr ⟨rfl, s.reg_setReg_same r v⟩⟩

theorem Update.apply_setReg_frame (e : Update) (s : State) (r : Reg) (v : Word) :
    (e.apply (s.setReg r v)).mem = (e.apply s).mem ∧ (e.apply (s.setReg r v)).flag = (e.apply s).flag ∧
    (e.apply (s.setReg r v)).pc = (e.apply s).pc ∧ (e.apply (s.setReg r v)).running = (e.apply s).running ∧
    (e.apply (s.setReg r v)).fault = (e.apply s).fault ∧ (e.apply (s.setReg r v)).prog = (e.apply s).prog ∧
    (e.apply (s.setReg r v)).strict = (e.apply s).strict := by
  cases e <;> exact ⟨rfl, rfl, rfl, rfl, rfl, rfl, rfl⟩

/-! ## The flag (R14) -/

/-- The flag steers no instruction but the four conditional branches. -/
theorem update_flag (s : State) (f : Flag) {i : Instr} (h : ∀ (o : BrOp) (l : LabelId), i = o.instr l → o = .b) :
    update { s with flag := f } i = update s i := by
  cases i with
  | beq l => cases h .beq l rfl
  | bne l => cases h .bne l rfl
  | bgt l => cases h .bgt l rfl
  | blt l => cases h .blt l rfl
  | _ => rfl

/-- An update treats all but the flag alike whatever the flag holds, and the flag itself is left or written. -/
theorem Update.apply_flag (e : Update) (s : State) (f : Flag) :
    { e.apply { s with flag := f } with flag := (e.apply s).flag } = e.apply s ∧
    ((e.apply { s with flag := f }).flag = (e.apply s).flag ∨
      ((e.apply s).flag = s.flag ∧ (e.apply { s with flag := f }).flag = f)) := by
  cases e with
  | compare g => exact ⟨rfl, .inl rfl⟩
  | _ => exact ⟨rfl, .inr ⟨rfl, rfl⟩⟩

theorem State.Fetches.withFlag {s : State} {w : IWord} (h : s.Fetches w) (f : Flag) :
    State.Fetches { s with flag := f } w :=
  ⟨h.progWf, h.running, h.line⟩

/-- The step of a line that is no conditional branch does not read the flag. -/
theorem step_withFlag {s t : State} {w : IWord} (f : Flag) (hw : s.Fetches w)
    (hb : ∀ (o : BrOp) (l : LabelId), decode w = .ok (o.instr l) → o = .b) (h : step s = .next t) :
    ∃ u, step { s with flag := f } = .next u ∧ { u with flag := t.flag } = t ∧
      (u.flag = t.flag ∨ (t.flag = s.flag ∧ u.flag = f)) := by
  cases hd : decode w with
  | error e =>
    rw [step_of_error hw hd] at h
    cases h
    exact ⟨_, step_of_error (hw.withFlag f) hd, rfl, .inr ⟨rfl, rfl⟩⟩
  | ok i =>
    have hi : ∀ (o : BrOp) (l : LabelId), i = o.instr l → o = .b := fun o l hc => hb o l (hc ▸ hd)
    rw [step_of_ok hw hd, exec_eq_apply] at h
    cases h
    refine ⟨_, (step_of_ok (hw.withFlag f) hd).trans (exec_eq_apply _ _), ?_⟩
    rw [update_flag s f hi]
    exact Update.apply_flag _ s f

/-! ## The program counter (R105) -/

/-- A branch that raised nothing has an entry for its label, and goes there when taken. -/
theorem State.branchTo_pc_of_taken {s : State} {o : BrOp} {l : LabelId} (ht : branchTaken o s.flag = true)
    (hf : (s.branchTo o l).fault = none) : labelIndex s.prog l = some (s.branchTo o l).pc := by
  cases hl : labelIndex s.prog l with
  | none => rw [State.branchTo_of_labelIndex_eq_none hl] at hf; cases hf
  | some t => rw [State.branchTo_of_labelIndex_eq_some hl, ht]; rfl

/-- A line that raised nothing, took no branch and is not HALT advances. -/
theorem Effect.pc_eq_succ {i : Instr} {s t : State} (h : Effect i s t) (hf : t.fault = none) (hi : i ≠ .halt)
    (hb : ∀ (o : BrOp) (l : LabelId), i = o.instr l → branchTaken o s.flag = false) : t.pc = s.pc + 1 := by
  cases h with
  | fatal => cases hf
  | jump o l t isBr taken => rw [hb o l isBr] at taken; cases taken
  | stop isHalt => exact absurd isHalt hi
  | _ => rfl

end Sys2Proof.Machine
end

section
open Sys2Proof Sys2Proof.Machine Sys2Proof.Claims

/-- Settles O16: the taken branch by `State.branchTo`, HALT by its effect, every other line by `Effect`. -/
theorem pcMovesByTheMux : Obligations.PcMovesByTheMux := by
  intro s t w i hw hd _ h hf
  rw [step_of_ok hw hd] at h
  refine ⟨fun o l hi ht => ?_, fun hi => ?_, fun hi hb => ?_⟩
  · rw [hi, exec_brInstr] at h
    cases h
    exact State.branchTo_pc_of_taken (by rwa [branchTaken_eq_takenTable]) hf
  · rw [hi] at h
    cases h; rfl
  · have hpc : t.pc = s.pc + 1 := (exec_effect_of h).pc_eq_succ hf hi fun o l ho => by
      rw [branchTaken_eq_takenTable]; exact hb o l ho
    exact ⟨hpc, by rw [hpc, hw.succ_toNat]⟩

/-- Settles O17: a step changes at most one cell. -/
theorem stepWritesAtMostOneCell : Obligations.StepWritesAtMostOneCell := by
  intro s t hm h
  obtain ⟨hcell, hstop⟩ := step_oneCell hm h
  obtain ⟨hregs, hmem, hreg, hword⟩ := hcell.at_most_one
  exact ⟨hregs, hmem, hreg, hword, hstop⟩

/-- Settles O19: the update does not read the flag, and every update treats the rest alike. -/
theorem flagReadByConditionalBranchesOnly : Obligations.FlagReadByConditionalBranchesOnly :=
  fun _ _ _ f hw hb h => step_withFlag f hw hb h

/-- Settles O22: the one effect that changes a register writes the destination. -/
theorem registersWrittenByDestinationOnly : Obligations.RegistersWrittenByDestinationOnly :=
  fun _ _ _ h hne => step_reg_ne h hne

/-- Settles O23: the update does not read `r`, and every update treats the rest alike. -/
theorem registersReadAsNamedOnly : Obligations.RegistersReadAsNamedOnly := by
  intro i s t r v hr h
  rw [exec_eq_apply] at h
  cases h
  refine ⟨(update s i).apply (s.setReg r v), by rw [exec_eq_apply, update_setReg hr], ?_⟩
  obtain ⟨hother, hself⟩ := (update s i).apply_setReg s r v
  exact ⟨hother, hself, (update s i).apply_setReg_frame s r v⟩
end

section
/-!
SUPPORT. The assembled word of a line decodes to what the line decodes to as text (R93).
-/
namespace Sys2Proof.Machine

/-! ## Clamped indices stay in range or out of it (R90) -/

theorem clamp8_toNat (i : Nat) : (clamp8 i).toNat = min i 255 := by
  rw [clamp8, BitVec.toNat_ofNat]
  omega

theorem clamp32_toNat (i : Nat) : (clamp32 i).toNat = min i 4294967295 := by
  rw [clamp32, BitVec.toNat_ofNat]
  omega

/-- The range check does not see a clamp at 16 or above. -/
theorem regOf_min {i m : Nat} (hm : 16 ≤ m) : regOf (min i m) = regOf i := by
  by_cases h : i < 16
  · rw [min_eq_left (by omega)]
  · rw [regOf_eq_none.mpr (by omega), regOf_eq_none.mpr (by omega)]

@[simp] theorem regOf_clamp8 (i : Nat) : regOf (clamp8 i).toNat = regOf i := by
  rw [clamp8_toNat, regOf_min (by decide)]

@[simp] theorem regOf_clamp32 (i : Nat) : regOf (clamp32 i).toNat = regOf i := by
  rw [clamp32_toNat, regOf_min (by decide)]

@[simp] theorem memIxOf_clamp32 (i : Nat) : memIxOf (clamp32 i).toNat = memIxOf i := by
  rw [clamp32_toNat]
  by_cases h : i < 256
  · rw [min_eq_left (by omega)]
  · rw [memIxOf_eq_none.mpr (by omega), memIxOf_eq_none.mpr (by omega)]

/-- Operand 2 is range-checked alike at both levels. -/
@[simp] theorem op2Of_raw (v : RawOp2) : op2Of v.k v.p = v.check := by
  cases v with
  | imm v => exact op2Of_zero _
  | reg m => exact (op2Of_one _).trans (by rw [RawOp2.p, regOf_clamp32]; rfl)

theorem RawOp2.k_lt (v : RawOp2) : ¬ 2 ≤ v.k.toNat := by cases v <;> simp [RawOp2.k]

/-! ## Lines -/

/-- The word of well-formed operands decodes to their range check: both levels look at the same range checks, whatever each
of them answers. -/
theorem decode_operandsWord (ids : Chars → LabelId) (r : RawOperands) : decode (r.word ids) = r.check ids := by
  cases r with
  | mem o d a =>
    rw [RawOperands.word, decode_mkWord, decodeFields, lineKind_opcode]
    cases hd : regOf d <;> cases ha : memIxOf a <;> simp [RawOperands.check, decodeMem, hd, ha]
  | alu3 o d n v =>
    rw [RawOperands.word, decode_mkWord, decodeFields, lineKind_opcode]
    cases hd : regOf d <;> cases hn : regOf n <;> cases hv : v.check <;>
      simp [RawOperands.check, decodeAlu3, RawOp2.k_lt, -not_le, hd, hn, hv]
  | alu2 o d v =>
    rw [RawOperands.word, decode_mkWord, decodeFields, lineKind_opcode]
    cases hd : regOf d <;> cases hv : v.check <;>
      simp [RawOperands.check, decodeAlu2, RawOp2.k_lt, -not_le, hd, hv]
  | cmp n v =>
    rw [RawOperands.word, decode_mkWord, decodeFields, lineKind_opcode]
    cases hn : regOf n <;> cases hv : v.check <;>
      simp [RawOperands.check, decodeCmp, RawOp2.k_lt, -not_le, hn, hv]
  | br o name => exact decode_encBr o (ids name)
  | halt => exact Laws.RoundTrip.halt rfl

/-- The word of a line decodes to the line. -/
theorem decode_lineWord (ids : Chars → LabelId) (l : TextLine) : decode (l.word ids) = l.decode ids := by
  cases l with
  | blank => exact Laws.RoundTrip.blank rfl
  | label name => exact Laws.RoundTrip.label (ids name) rfl
  | unk => exact Laws.RoundTrip.unk 0x14 rfl
  | malformed => exact Laws.RoundTrip.bad rfl
  | insn r => exact decode_operandsWord ids r

theorem asmWith_length (ids : Chars → LabelId) (lines : List Chars) : (asmWith ids lines).length = lines.length :=
  List.length_map _

theorem asmWith_line (ids : Chars → LabelId) (lines : List Chars) (i : Nat) :
    (asmWith ids lines)[i]? = lines[i]?.map fun s => (classify s).word ids :=
  List.getElem?_map

end Sys2Proof.Machine
end

section
open Sys2Proof Sys2Proof.Machine

/-- Settles O54: the assembler works line by line, and each line's word decodes to the line. -/
theorem assembledLinesDecodeLikeText : Obligations.AssembledLinesDecodeLikeText := by
  intro ids lines
  refine ⟨asmWith_length ids lines, fun i line h => ⟨(classify line).word ids, ?_, decode_lineWord ids _⟩⟩
  rw [asmWith_line, h]; rfl
end

section
/-!
SUPPORT. The names of a program and their ids (R91), and the label index at both levels (R92, R93).
-/
namespace Sys2Proof.Machine

/-! ## Names (R91) -/

/-- The names met after one more line. -/
def metAfter (met : List Chars) (s : Chars) : List Chars :=
  match scannedName s with
  | some name => if met.contains name then met else met ++ [name]
  | none => met

theorem scanNames_cons (met : List Chars) (s : Chars) (ss : List Chars) :
    scanNames met (s :: ss) = scanNames (metAfter met s) ss := by
  rw [scanNames, metAfter]
  cases scannedName s <;> rfl

theorem mem_metAfter {met : List Chars} {s name : Chars} :
    name ∈ metAfter met s ↔ name ∈ met ∨ scannedName s = some name := by
  unfold metAfter
  cases scannedName s with
  | none => simp
  | some n =>
    by_cases h : n ∈ met
    · simp only [List.contains_iff_mem, h, if_true, Option.some.injEq]
      exact ⟨.inl, fun hn => hn.elim id fun he => he ▸ h⟩
    · simp [h, eq_comm]

theorem metAfter_length_le (met : List Chars) (s : Chars) : (metAfter met s).length ≤ met.length + 1 := by
  unfold metAfter
  split
  · split
    · exact Nat.le_succ _
    · rw [List.length_append]; rfl
  · exact Nat.le_succ _

/-- The names of a program are those on its lines. -/
theorem mem_scanNames {met lines : List Chars} {name : Chars} :
    name ∈ scanNames met lines ↔ name ∈ met ∨ ∃ s ∈ lines, scannedName s = some name := by
  induction lines generalizing met with
  | nil => simp [scanNames]
  | cons s ss ih => rw [scanNames_cons, ih, mem_metAfter]; simp [or_assoc]

/-- Each line adds at most one name. -/
theorem scanNames_length_le (met lines : List Chars) :
    (scanNames met lines).length ≤ met.length + lines.length := by
  induction lines generalizing met with
  | nil => simp [scanNames]
  | cons s ss ih =>
    have hmet := metAfter_length_le met s
    rw [scanNames_cons, List.length_cons]
    exact (ih _).trans (by omega)

/-- Names of a program that fits have distinct ids. -/
theorem labelIds_injective {lines : List Chars} (hl : lines.length ≤ 65535) {a b : Chars}
    (ha : a ∈ scanNames [] lines) (hb : b ∈ scanNames [] lines) (h : labelIds lines a = labelIds lines b) : a = b := by
  have hlen : (scanNames [] lines).length ≤ 65535 := (scanNames_length_le [] lines).trans (by simpa using hl)
  have hia := List.idxOf_lt_length_of_mem ha
  have hib := List.idxOf_lt_length_of_mem hb
  have hidx : (scanNames [] lines).idxOf a = (scanNames [] lines).idxOf b := by
    have := congrArg BitVec.toNat h
    simp only [labelIds, BitVec.toNat_ofNat] at this
    omega
  exact (List.idxOf_inj ha).mp hidx

/-! ## The label index -/

theorem labelOfText_eq_some {s name : Chars} : labelOfText s = some name ↔ classify s = .label name := by
  unfold labelOfText
  cases classify s <;> simp

/-- A declared name is one of the program's. -/
theorem scannedName_of_labelOfText {s name : Chars} (h : labelOfText s = some name) : scannedName s = some name := by
  rw [scannedName, labelOfText_eq_some.mp h]

/-- The word of an instruction line has a mnemonic's opcode. -/
theorem opField_operandsWord (r : RawOperands) (ids : Chars → LabelId) :
    ∃ m : Mnemonic, opField (r.word ids) = m.opcode := by
  cases r with
  | mem o => exact ⟨.mem o, opField_mkWord ..⟩
  | alu3 o => exact ⟨.alu3 o, opField_mkWord ..⟩
  | alu2 o => exact ⟨.alu2 o, opField_mkWord ..⟩
  | cmp => exact ⟨.cmp, opField_mkWord ..⟩
  | br o => exact ⟨.br o, opField_mkWord ..⟩
  | halt => exact ⟨.halt, opField_mkWord ..⟩

/-- No operands decode to a label declaration. -/
theorem check_ne_label (r : RawOperands) (ids : Chars → LabelId) (l : LabelId) : r.check ids ≠ .ok (.label l) := by
  rw [← decode_operandsWord]
  intro h
  obtain ⟨m, hm⟩ := opField_operandsWord r ids
  have hop : opField (r.word ids) = 0x01 := (Decodes.of_decode h).opField_eq.trans (opField_mkWord ..)
  have hkind := lineKind_opcode m
  rw [← hm, hop] at hkind
  cases hkind

/-- A line's word declares the id of the name that the line declares. -/
theorem labelOfWord_lineWord (ids : Chars → LabelId) (s : Chars) :
    labelOfWord ((classify s).word ids) = (labelOfText s).map ids := by
  ext l
  rw [labelOfWord_eq_some, decode_lineWord, Option.map_eq_some_iff]
  simp only [labelOfText_eq_some]
  cases classify s <;> simp [TextLine.decode, check_ne_label]

/-- Where two programs declare a label on the same lines, its last declaration is the same. -/
theorem lastDecl_map {A B L K : Type} [DecidableEq L] [DecidableEq K] {declares : A → Option L}
    {declares' : B → Option K} {f : A → B} {l : L} {k : K} {xs : List A}
    (h : ∀ x ∈ xs, declares' (f x) = some k ↔ declares x = some l) :
    lastDecl declares' k (xs.map f) = lastDecl declares l xs := by
  induction xs with
  | nil => rfl
  | cons x xs ih =>
    rw [List.map_cons, lastDecl, lastDecl, ih fun y hy => h y (List.mem_cons_of_mem x hy)]
    simp only [h x List.mem_cons_self]

theorem textLabelIndex_eq (lines : List Chars) (name : Chars) :
    textLabelIndex lines name = (lastDecl labelOfText name lines).map fun j => BitVec.ofNat 16 (j + 1) :=
  lookup_buildLabelIndex_empty labelOfText name lines

/-- The label index of the assembled program is that of the text (R93). -/
theorem labelIndex_asm {lines : List Chars} (hl : lines.length ≤ 65535) {name : Chars}
    (hn : name ∈ scanNames [] lines) : labelIndex (asm lines) (labelIds lines name) = textLabelIndex lines name := by
  have hdecl : ∀ s ∈ lines, labelOfWord ((classify s).word (labelIds lines)) = some (labelIds lines name) ↔
      labelOfText s = some name := by
    intro s hs
    rw [labelOfWord_lineWord, Option.map_eq_some_iff]
    constructor
    · rintro ⟨k, hk, hid⟩
      have hmem : k ∈ scanNames [] lines := mem_scanNames.mpr (.inr ⟨s, hs, scannedName_of_labelOfText hk⟩)
      rw [hk, labelIds_injective hl hmem hn hid]
    · exact fun h => ⟨name, h, rfl⟩
  rw [labelIndex_eq, textLabelIndex_eq, asm, asmWith, lastDecl_map hdecl]

/-! ## The two machines (R6) -/

/-- The ids of names are read by branches alone. -/
theorem check_congr {r : RawOperands} (h : ∀ o name, r ≠ .br o name) (ids ids' : Chars → LabelId) :
    r.check ids = r.check ids' := by
  cases r with
  | br o name => exact absurd rfl (h o name)
  | _ => rfl

/-- The answer of a step to a decoded line (R100). -/
def stepOn (s : State) : Decoded → StepResult
  | .error e => .next (s.raise (decodeCause e))
  | .ok i => exec i s

theorem step_eq_stepOn {s : State} {w : IWord} (h : s.Fetches w) : step s = stepOn s (decode w) := by
  rw [step_of_fetches h]
  cases decode w <;> rfl

/-- A line that is no branch is decoded and executed, whatever ids its names have. -/
theorem textExec_of_no_branch {r : RawOperands} (h : ∀ o name, r ≠ .br o name) (lines : List Chars) (s : State)
    (ids : Chars → LabelId) : textExec lines s (.insn r) = stepOn s (r.check ids) := by
  rw [check_congr h ids fun _ => 0]
  cases r with
  | br o name => exact absurd rfl (h o name)
  | _ =>
    simp only [textExec, TextLine.decode]
    cases RawOperands.check _ _ <;> rfl

/-- A branch finds by name what it finds by id. -/
theorem branchToName_eq {lines : List Chars} {s : State} (hs : s.prog = asm lines) (hl : lines.length ≤ 65535)
    {name : Chars} (hn : name ∈ scanNames [] lines) (o : BrOp) :
    s.branchToName lines o name = s.branchTo o (labelIds lines name) := by
  rw [State.branchToName, State.branchTo, hs, labelIndex_asm hl hn]

/-- The text machine's step on a line is the step on the line's decoded form. -/
theorem textExec_eq_stepOn {lines : List Chars} {s : State} (hs : s.prog = asm lines) (hl : lines.length ≤ 65535)
    {line : Chars} (hmem : line ∈ lines) :
    textExec lines s (classify line) = stepOn s ((classify line).decode (labelIds lines)) := by
  cases hc : classify line with
  | insn r =>
    cases r with
    | br o name =>
      have hn : name ∈ scanNames [] lines := mem_scanNames.mpr (.inr ⟨line, hmem, by rw [scannedName, hc]⟩)
      exact (congrArg Host.Outcome.next (branchToName_eq hs hl hn o)).trans (exec_brInstr o _ s).symm
    | _ => exact textExec_of_no_branch (by simp) lines s (labelIds lines)
  | _ => rfl

/-- The text machine and the machine on the assembled program take the same step (R93). -/
theorem step_eq_textStep {lines : List Chars} {s : State} (hs : s.prog = asm lines) : step s = textStep lines s := by
  have hlen : s.prog.length = lines.length := by rw [hs]; exact asmWith_length _ _
  unfold textStep
  split
  next hlong => exact step_of_tooLong (by rwa [hlen])
  next hfits =>
    have hp : programWf s.prog = true := (programWf_iff _).mpr (by rw [hlen]; exact not_lt.mp hfits)
    have hline : s.fetch = lines[s.pc.toNat]?.map fun line => (classify line).word (labelIds lines) := by
      rw [State.fetch, hs]; exact asmWith_line _ _ _
    split
    next hr => exact step_of_halted hp hr
    next hr =>
      have hr : s.running = true := by simpa using hr
      cases hg : lines[s.pc.toNat]? with
      | none => exact step_of_noLine hp hr (by rw [hline, hg]; rfl)
      | some line =>
        have hw : s.Fetches ((classify line).word (labelIds lines)) :=
          ⟨hp, hr, hline.trans (by rw [hg]; rfl)⟩
        rw [step_eq_stepOn hw, decode_lineWord]
        exact (textExec_eq_stepOn hs (not_lt.mp hfits) (List.mem_of_getElem? hg)).symm

end Sys2Proof.Machine
end

section
open Sys2Proof Sys2Proof.Machine

/-- Settles O55: ids are places in the list of names, and a label has its last declaration on the same line at both
levels. -/
theorem assembledLabelIndexAgrees : Obligations.AssembledLabelIndexAgrees :=
  fun _ hl => ⟨fun _ ha _ hb h => labelIds_injective hl ha hb h, fun _ hn => labelIndex_asm hl hn⟩

/-- Settles O56: the fetched word decodes to its line, and the branches find the same entries. -/
theorem textMachineAgreesWithBinary : Obligations.TextMachineAgreesWithBinary :=
  fun _ _ hs => step_eq_textStep hs

/-- Settles O58: each line is classified by evaluation. -/
theorem textExamplesClassify : Obligations.TextExamplesClassify := by
  unfold Obligations.TextExamplesClassify
  decide
end

section
/-!
SUPPORT. Text put together from tokens is taken apart into them again: tokens, commas, trimming (R61, R66).
-/
namespace Sys2Proof.Machine

/-- A non-empty string without whitespace. -/
structure IsToken (t : Chars) : Prop where
  ne_nil : t ≠ []
  solid : ∀ c ∈ t, isSpace c = false

theorem solid_of_any {t : Chars} (h : t.any isSpace = false) : ∀ c ∈ t, isSpace c = false := by
  simpa using h

theorem IsToken.append {t u : Chars} (ht : IsToken t) (hu : ∀ c ∈ u, isSpace c = false) : IsToken (t ++ u) where
  ne_nil := List.append_ne_nil_of_left_ne_nil ht.ne_nil u
  solid c hc := (List.mem_append.mp hc).elim (ht.solid c) (hu c)

/-! ## Tokens -/

/-- Characters that are no whitespace belong to the token being read. -/
theorem splitTokens_append {t : Chars} (ht : ∀ c ∈ t, isSpace c = false) (s : Chars) :
    splitTokens (t ++ s) = (t ++ (splitTokens s).1, (splitTokens s).2) := by
  induction t with
  | nil => rfl
  | cons c t ih =>
    have hc := ht c List.mem_cons_self
    rw [List.cons_append, splitTokens, ih fun d hd => ht d (List.mem_cons_of_mem c hd)]
    simp [hc]

/-- A space ends the token being read. -/
theorem splitTokens_space (s : Chars) : splitTokens (' ' :: s) = ([], tokens s) := rfl

theorem consToken_of_ne_nil {t : Chars} (h : t ≠ []) (ts : List Chars) : consToken t ts = t :: ts := by
  simp [consToken, h]

theorem tokens_of_isToken {t : Chars} (h : IsToken t) : tokens t = [t] := by
  have hs : splitTokens t = (t, []) := by
    have := splitTokens_append h.solid []
    simpa [splitTokens] using this
  rw [tokens, hs, consToken_of_ne_nil h.ne_nil]

theorem tokens_append_space {t : Chars} (h : IsToken t) (s : Chars) : tokens (t ++ ' ' :: s) = t :: tokens s := by
  rw [tokens, splitTokens_append h.solid, splitTokens_space, List.append_nil, consToken_of_ne_nil h.ne_nil]

/-! ## Operands and their commas (R66) -/

/-- Operand tokens as they stand on a line: a comma after each but the last. -/
def withCommas : List Chars → List Chars
  | [] => []
  | [t] => [t]
  | t :: u :: ts => (t ++ [',']) :: withCommas (u :: ts)

/-- The operands of a line, a comma and a space between each two (R94). -/
def spellOperands (ts : List Chars) : Chars := [',', ' '].intercalate ts

theorem spellOperands_single (t : Chars) : spellOperands [t] = t := by
  simp [spellOperands, List.intercalate]

theorem spellOperands_cons_cons (t u : Chars) (ts : List Chars) :
    spellOperands (t :: u :: ts) = (t ++ [',']) ++ ' ' :: spellOperands (u :: ts) := by
  simp [spellOperands, List.intercalate_cons_cons]

theorem tokens_spellOperands {ts : List Chars} (h : ∀ t ∈ ts, IsToken t) (hne : ts ≠ []) :
    tokens (spellOperands ts) = withCommas ts := by
  induction ts with
  | nil => exact absurd rfl hne
  | cons t ts ih =>
    have ht := h t List.mem_cons_self
    cases ts with
    | nil => rw [spellOperands_single]; exact tokens_of_isToken ht
    | cons u ts =>
      have hcomma : IsToken (t ++ [',']) := ht.append (solid_of_any rfl)
      rw [spellOperands_cons_cons, tokens_append_space hcomma,
        ih (fun v hv => h v (List.mem_cons_of_mem t hv)) (List.cons_ne_nil u ts)]
      rfl

theorem stripComma_append (t : Chars) : stripComma (t ++ [',']) = some t := by
  simp [stripComma]

theorem stripCommas_withCommas (ts : List Chars) : stripCommas (withCommas ts) = some ts := by
  induction ts with
  | nil => rfl
  | cons t ts ih =>
    cases ts with
    | nil => rfl
    | cons u ts =>
      have hcons : ∃ v vs, withCommas (u :: ts) = v :: vs := by
        cases ts with
        | nil => exact ⟨_, _, rfl⟩
        | cons => exact ⟨_, _, rfl⟩
      obtain ⟨v, vs, hv⟩ := hcons
      rw [hv] at ih
      rw [withCommas, hv, stripCommas, stripComma_append, ih]
      simp

/-! ## Trimming (R61) -/

/-- A string whose last character is no whitespace. -/
def EndsSolid (s : Chars) : Prop := ∃ c, s.getLast? = some c ∧ isSpace c = false

theorem EndsSolid.append {u : Chars} (h : EndsSolid u) (s : Chars) : EndsSolid (s ++ u) := by
  obtain ⟨c, hc, hs⟩ := h
  exact ⟨c, by rw [List.getLast?_append, hc]; rfl, hs⟩

theorem IsToken.endsSolid {t : Chars} (h : IsToken t) : EndsSolid t :=
  ⟨t.getLast h.ne_nil, List.getLast?_eq_some_getLast h.ne_nil, h.solid _ (List.getLast_mem h.ne_nil)⟩

theorem spellOperands_endsSolid {ts : List Chars} (h : ∀ t ∈ ts, IsToken t) (hne : ts ≠ []) :
    EndsSolid (spellOperands ts) := by
  induction ts with
  | nil => exact absurd rfl hne
  | cons t ts ih =>
    cases ts with
    | nil => rw [spellOperands_single]; exact (h t List.mem_cons_self).endsSolid
    | cons u ts =>
      have hrest := ih (fun v hv => h v (List.mem_cons_of_mem t hv)) (List.cons_ne_nil u ts)
      rw [spellOperands_cons_cons, List.append_cons]
      exact hrest.append _

/-- Nothing is trimmed of a line that begins with a token and does not end in whitespace. -/
theorem trim_eq_self {t s : Chars} (ht : IsToken t) (h : EndsSolid (t ++ s)) : trim (t ++ s) = t ++ s := by
  obtain ⟨c, hc, hs⟩ := h
  have hfront : (t ++ s).dropWhile isSpace = t ++ s := by
    cases t with
    | nil => exact absurd rfl ht.ne_nil
    | cons d t => exact List.dropWhile_cons_of_neg (by simp [ht.solid d List.mem_cons_self])
  obtain ⟨r, hr⟩ := List.head?_eq_some_iff.mp (List.head?_reverse.trans hc)
  rw [trim, hfront, hr, List.dropWhile_cons_of_neg (by simp [hs]), ← hr, List.reverse_reverse]

/-! ## Lines with operands (R62) -/

theorem labelDecl_of_space {s : Chars} (h : ' ' ∈ s) : labelDecl s = none := by
  have hany : s.any isSpace = true := List.any_eq_true.mpr ⟨' ', h, rfl⟩
  simp [labelDecl, hany]

theorem mnemonicOf_name (m : Mnemonic) : mnemonicOf (Mnemonic.name m) = some m := by
  cases m with
  | mem o => cases o <;> decide
  | alu3 o => cases o <;> decide
  | alu2 o => cases o <;> decide
  | cmp => decide
  | br o => cases o <;> decide
  | halt => decide

theorem Mnemonic.name_isToken (m : Mnemonic) : IsToken (Mnemonic.name m) := by
  cases m with
  | mem o => cases o <;> exact ⟨by decide, solid_of_any rfl⟩
  | alu3 o => cases o <;> exact ⟨by decide, solid_of_any rfl⟩
  | alu2 o => cases o <;> exact ⟨by decide, solid_of_any rfl⟩
  | cmp => exact ⟨by decide, solid_of_any rfl⟩
  | br o => cases o <;> exact ⟨by decide, solid_of_any rfl⟩
  | halt => exact ⟨by decide, solid_of_any rfl⟩

/-- The canonical spelling of a mnemonic with operands is classified by the shape of its operands. -/
theorem classify_spellWith {m : Mnemonic} {ops : List Chars} {r : RawOperands} (hops : ∀ t ∈ ops, IsToken t)
    (hne : ops ≠ []) (hshape : parseShape m ops = some r) : classify (spellWith m ops) = .insn r := by
  have hspell : spellWith m ops = Mnemonic.name m ++ ' ' :: spellOperands ops := by
    cases ops with
    | nil => exact absurd rfl hne
    | cons t ts => rfl
  have hname := Mnemonic.name_isToken m
  have htrim : trim (spellWith m ops) = spellWith m ops := by
    rw [hspell]
    refine trim_eq_self hname ?_
    rw [List.append_cons]
    exact (spellOperands_endsSolid hops hne).append _
  have hnonempty : (spellWith m ops).isEmpty = false := by simp [hspell]
  have hdecl : labelDecl (spellWith m ops) = none := labelDecl_of_space (by simp [hspell])
  have htokens : tokens (spellWith m ops) = Mnemonic.name m :: withCommas ops := by
    rw [hspell, tokens_append_space hname, tokens_spellOperands hops hne]
  rw [classify, htrim, hnonempty, hdecl, htokens]
  simp [classifyTokens, mnemonicOf_name, parseOperands, stripCommas_withCommas, hshape]

end Sys2Proof.Machine
end

section
/-!
SUPPORT. Numbers, registers and immediates read back from their spelling (R67 to R69, R94).
-/
namespace Sys2Proof.Machine

/-- The digit of a number below ten. -/
theorem digit_spec {k : Nat} (h : k < 10) :
    isDigit (Char.ofNat (0x30 + k)) = true ∧ digitValue (Char.ofNat (0x30 + k)) = k := by
  revert k; decide

theorem digitsValue_append (t : Chars) (c : Char) : digitsValue (t ++ [c]) = 10 * digitsValue t + digitValue c := by
  simp [digitsValue]

theorem decimalFuel_spec {fuel n : Nat} (h : n < fuel) : decimalFuel fuel n ≠ [] ∧
    (∀ c ∈ decimalFuel fuel n, isDigit c = true) ∧ digitsValue (decimalFuel fuel n) = n := by
  induction fuel generalizing n with
  | zero => exact absurd h (Nat.not_lt_zero n)
  | succ fuel ih =>
    rw [decimalFuel]
    split
    · rename_i hn
      obtain ⟨hd, hv⟩ := digit_spec hn
      refine ⟨List.cons_ne_nil _ _, by simpa using hd, ?_⟩
      simpa [digitsValue] using hv
    · rename_i hn
      obtain ⟨-, hdigits, hvalue⟩ := ih (n := n / 10) (by omega)
      obtain ⟨hd, hv⟩ := digit_spec (Nat.mod_lt n (by decide : 0 < 10))
      refine ⟨by simp, fun c hc => ?_, ?_⟩
      · rcases List.mem_append.mp hc with hc | hc
        · exact hdigits c hc
        · rw [List.mem_singleton.mp hc]; exact hd
      · rw [digitsValue_append, hvalue, hv]; omega

theorem decimal_ne_nil (n : Nat) : decimal n ≠ [] := (decimalFuel_spec (Nat.lt_succ_self n)).1

theorem decimal_digits (n : Nat) : ∀ c ∈ decimal n, isDigit c = true := (decimalFuel_spec (Nat.lt_succ_self n)).2.1

theorem digitsValue_decimal (n : Nat) : digitsValue (decimal n) = n := (decimalFuel_spec (Nat.lt_succ_self n)).2.2

/-- A digit is no whitespace. -/
theorem isSpace_of_isDigit {c : Char} (h : isDigit c = true) : isSpace c = false := by
  simp only [isDigit, Bool.and_eq_true, decide_eq_true_eq] at h
  simp only [isSpace, Bool.or_eq_false_iff, beq_eq_false_iff_ne]
  omega

theorem decimal_isToken (n : Nat) : IsToken (decimal n) :=
  ⟨decimal_ne_nil n, fun c hc => isSpace_of_isDigit (decimal_digits n c hc)⟩

theorem parseNat_decimal (n : Nat) : parseNat (decimal n) = some n := by
  have hall : (decimal n).all isDigit = true := List.all_eq_true.mpr (decimal_digits n)
  simp [parseNat, hall, decimal_ne_nil, digitsValue_decimal]

theorem spellReg_isToken (r : Reg) : IsToken (spellReg r) :=
  ⟨List.cons_ne_nil _ _, by
    intro c hc
    rcases List.mem_cons.mp hc with rfl | hc
    · decide
    · exact (decimal_isToken r.val).solid c hc⟩

theorem parseReg_spellReg (r : Reg) : parseReg (spellReg r) = some r.val := parseNat_decimal r.val

/-- Without a sign the number is the digits'. -/
theorem parseSigned_decimal (n : Nat) : parseSigned (decimal n) = some (n : Int) := by
  unfold parseSigned
  split
  next ds h =>
    have := decimal_digits n '-' (by rw [h]; exact List.mem_cons_self)
    exact absurd this (by decide)
  next => rw [parseNat_decimal]; rfl

theorem parseSigned_neg_decimal (n : Nat) : parseSigned ('-' :: decimal n) = some (-(n : Int)) := by
  rw [parseSigned, parseNat_decimal]; rfl

/-- An immediate's number is read back, with its sign. -/
theorem parseSigned_spelling (v : Int) :
    parseSigned (if v < 0 then '-' :: decimal v.natAbs else decimal v.natAbs) = some v := by
  split
  · rw [parseSigned_neg_decimal]; congr 1; omega
  · rw [parseSigned_decimal]; congr 1; omega

theorem immInRange_toInt (v : Word) : immInRange v.toInt = true := by
  have hlo := BitVec.le_toInt v
  have hhi := BitVec.toInt_lt (x := v)
  simp only [immInRange, Bool.and_eq_true, decide_eq_true_eq]
  omega

/-- Operand 2 as the spelling is parsed, before its range is checked. -/
def rawOp2 : Op2 → RawOp2
  | .imm v => .imm v.toInt
  | .reg m => .reg m.val

theorem parseOp2_spellOp2 (o : Op2) : parseOp2 (spellOp2 o) = some (rawOp2 o) := by
  cases o with
  | imm v =>
    rw [spellOp2, parseOp2, parseSigned_spelling]
    simp [immInRange_toInt, rawOp2]
  | reg m => exact congrArg (Option.map RawOp2.reg) (parseReg_spellReg m)

theorem check_rawOp2 (o : Op2) : (rawOp2 o).check = some o := by
  cases o with
  | imm v => rw [rawOp2, RawOp2.check, wrap32_toInt]
  | reg m => rw [rawOp2, RawOp2.check, regOf_val]; rfl

theorem spellOp2_isToken (o : Op2) : IsToken (spellOp2 o) := by
  cases o with
  | imm v =>
    have hash : IsToken ['#'] := ⟨by decide, solid_of_any rfl⟩
    have minus : ∀ c ∈ ['-'], isSpace c = false := solid_of_any rfl
    have hdigits := (decimal_isToken v.toInt.natAbs).solid
    rw [spellOp2]
    split
    · exact (hash.append minus).append hdigits
    · exact hash.append hdigits
  | reg m => exact spellReg_isToken m

end Sys2Proof.Machine
end

section
/-!
SUPPORT. The canonical spelling of each shape of line decodes to the line (R94).
-/
namespace Sys2Proof.Machine

variable (ids : Chars → LabelId)

/-- A spelt line decodes to the range check of its operands. -/
theorem textDecode_spellWith {m : Mnemonic} {ops : List Chars} {r : RawOperands} (hops : ∀ t ∈ ops, IsToken t)
    (hne : ops ≠ []) (hshape : parseShape m ops = some r) : textDecode ids (spellWith m ops) = r.check ids := by
  rw [textDecode, classify_spellWith hops hne hshape, TextLine.decode]

theorem textDecode_spell_mem (o : MemOp) (d : Reg) (a : MemIx) :
    textDecode ids (spellWith (.mem o) [spellReg d, decimal a.val]) = .ok (o.instr d a) := by
  rw [textDecode_spellWith ids (r := .mem o d.val a.val) (by simp [spellReg_isToken, decimal_isToken]) (by simp)
    (by simp [parseShape, parseReg_spellReg, parseNat_decimal])]
  simp [RawOperands.check]

theorem textDecode_spell_alu3 (o : Alu3Op) (d n : Reg) (v : Op2) :
    textDecode ids (spellWith (.alu3 o) [spellReg d, spellReg n, spellOp2 v]) = .ok (o.instr d n v) := by
  rw [textDecode_spellWith ids (r := .alu3 o d.val n.val (rawOp2 v)) (by simp [spellReg_isToken, spellOp2_isToken])
    (by simp) (by simp [parseShape, parseReg_spellReg, parseOp2_spellOp2])]
  simp [RawOperands.check, check_rawOp2]

theorem textDecode_spell_alu2 (o : Alu2Op) (d : Reg) (v : Op2) :
    textDecode ids (spellWith (.alu2 o) [spellReg d, spellOp2 v]) = .ok (o.instr d v) := by
  rw [textDecode_spellWith ids (r := .alu2 o d.val (rawOp2 v)) (by simp [spellReg_isToken, spellOp2_isToken])
    (by simp) (by simp [parseShape, parseReg_spellReg, parseOp2_spellOp2])]
  simp [RawOperands.check, check_rawOp2]

theorem textDecode_spell_cmp (n : Reg) (v : Op2) :
    textDecode ids (spellWith .cmp [spellReg n, spellOp2 v]) = .ok (.cmp n v) := by
  rw [textDecode_spellWith ids (r := .cmp n.val (rawOp2 v)) (by simp [spellReg_isToken, spellOp2_isToken])
    (by simp) (by simp [parseShape, parseReg_spellReg, parseOp2_spellOp2])]
  simp [RawOperands.check, check_rawOp2]

theorem textDecode_spell_br (o : BrOp) {name : Chars} (h : IsToken name) :
    textDecode ids (spellWith (.br o) [name]) = .ok (o.instr (ids name)) :=
  textDecode_spellWith ids (r := .br o name) (by simpa using h) (by simp) rfl

/-- A label line is its name and one colon (R63). -/
theorem classify_label {name : Chars} (h : IsToken name) (hc : ∀ c ∈ name, c ≠ ':') :
    classify (name ++ [':']) = .label name := by
  have hline : IsToken (name ++ [':']) := h.append (solid_of_any rfl)
  have htrim : trim (name ++ [':']) = name ++ [':'] := trim_eq_self h hline.endsSolid
  have hspace : (name ++ [':']).any isSpace = false :=
    List.any_eq_false.mpr fun c hmem => by simp [hline.solid c hmem]
  have hcolon : name.count ':' = 0 := List.count_eq_zero.mpr fun hmem => hc ':' hmem rfl
  have hlen : 1 ≤ name.length := List.length_pos_of_ne_nil h.ne_nil
  rw [classify, htrim, labelDecl, hspace]
  simp [hcolon, hlen]

end Sys2Proof.Machine
end

section
open Sys2Proof Sys2Proof.Machine

/-- Settles O57: one lemma per shape of line; UNK and BAD have one spelling each, which is evaluated. -/
theorem canonicalSpellingDecodes : Obligations.CanonicalSpellingDecodes := by
  intro ids names i hids hne hchars hunk
  have hname : ∀ l, IsToken (names l) := fun l => ⟨hne l, fun c hc => (hchars l c hc).1⟩
  have br (o : BrOp) (l : LabelId) : textDecode ids (spellWith (.br o) [names l]) = .ok (o.instr l) := by
    rw [textDecode_spell_br ids o (hname l), hids]
  cases i with
  | ldr d a => exact textDecode_spell_mem ids .ldr d a
  | str d a => exact textDecode_spell_mem ids .str d a
  | add d n o => exact textDecode_spell_alu3 ids .add d n o
  | sub d n o => exact textDecode_spell_alu3 ids .sub d n o
  | and d n o => exact textDecode_spell_alu3 ids .and d n o
  | orr d n o => exact textDecode_spell_alu3 ids .orr d n o
  | eor d n o => exact textDecode_spell_alu3 ids .eor d n o
  | lsl d n o => exact textDecode_spell_alu3 ids .lsl d n o
  | lsr d n o => exact textDecode_spell_alu3 ids .lsr d n o
  | mov d o => exact textDecode_spell_alu2 ids .mov d o
  | mvn d o => exact textDecode_spell_alu2 ids .mvn d o
  | cmp n o => exact textDecode_spell_cmp ids n o
  | b l => exact br .b l
  | beq l => exact br .beq l
  | bne l => exact br .bne l
  | bgt l => exact br .bgt l
  | blt l => exact br .blt l
  | halt => rfl
  | label l =>
    rw [spell, textDecode, classify_label (hname l) fun c hc => (hchars l c hc).2, TextLine.decode, hids]
  | blank => rfl
  | unk op => rw [hunk op rfl]; rfl
  | bad => rfl
end
